-- ==== Sys2Proof/Word.lean ====
section
/-! DEFINITION. The machine's value types: bytes, 16-bit words, 12-bit immediate addresses, and the
indices of its fixed-size arrays (spec/00_scope.md R3, spec/10_state.md). -/

namespace Sys2Proof

/-- A byte: a general register, a timer, a memory cell, an immediate `kk` (R10, R18, R19, R21). -/
abbrev Byte := BitVec 8

/-- A 16-bit word: `pc`, `I`, a stack entry, an instruction word (R12, R13, R15, R50). -/
abbrev Word := BitVec 16

/-- The 12-bit immediate address `nnn` (R51, R53). -/
abbrev Addr12 := BitVec 12

/-- A register number, `0 .. 15` (R10). -/
abbrev Reg := Fin 16

/-- A sprite height, the 4-bit count of rows `0 .. 15` of `Dxyn` (R53). -/
abbrev Height := Fin 16

/-- A logical key number, `0 .. 15` (R20). -/
abbrev Key := Fin 16

/-- A framebuffer column, `0 .. 63` (R17). -/
abbrev Col := Fin 64

/-- A framebuffer row, `0 .. 31` (R17). -/
abbrev Row := Fin 32

/-- `VF`, register 15, the one that doubles as the flag (R11). -/
abbrev regF : Reg := 15

/-- `V0`, the offset register of the jump with offset (R10, R87). -/
abbrev reg0 : Reg := 0

end Sys2Proof
end

