-- ==== Sys2Proof/Config.lean ====
section
/-! DEFINITION. What is fixed for the life of the machine: the sizes the spec fixes
(spec/00_scope.md R3), the three parameters the spec leaves to the model as arguments (R4, R5, R6),
and the free value that stands for the random byte of a step (spec/42_register_alu.md R100). -/

namespace Sys2Proof

/-! ### The sizes of R3 -/

/-- Bytes of memory: addresses `0x000 .. 0xFFF` (R3, R30). -/
abbrev memSize : Nat := 4096

/-- The highest address, `0xFFF` (R30). -/
abbrev lastAddr : Nat := 0xFFF

/-- Where a program is loaded and where `pc` starts (R3, R31). -/
abbrev progBase : Nat := 0x200

/-- The largest program, `4096 - 0x200` bytes (R3, R182). -/
abbrev progMax : Nat := 3584

/-- The capacity of the call stack (R3, R15). -/
abbrev stackDepth : Nat := 16

/-- Bytes of font in all: 16 glyphs of 5 bytes (R3, R32). -/
abbrev fontBytes : Nat := 80

/-- Bytes of one glyph (R3). -/
abbrev glyphBytes : Nat := 5

/-! ### The parameters of R4, R5 and R6 -/

/-- The named parameters of the model.
* `fontBase` is `FONT_BASE`, any address of `0x000 .. 0x1B0` (R4: the type is the constraint);
* `fontData` is `FONT_DATA`, glyph `d` at offsets `5*d .. 5*d+4` (R5);
* `ext8xy0Fx07` is the spec's own switch `EXT_8XY0_FX07` (R6). -/
structure Config where
  fontBase : Fin 0x1B1
  fontData : Vector Byte fontBytes
  ext8xy0Fx07 : Bool
  deriving DecidableEq, Repr

/-- `FONT_BASE` of the machine: an implementation constant whose value the spec leaves open (R4, D4).
It has no body, so every claim holds for every admissible base. Log entry 1. -/
opaque machineFontBase : Fin 0x1B1

/-- `FONT_DATA` of the machine: 80 bytes the spec leaves open (R5, D5).
It has no body, so every claim holds for every font. Log entry 2. -/
opaque machineFontData : Vector Byte fontBytes

/-- The configuration of this hardware: the open font parameters, and the switch off (R6, R8). -/
def Config.machine : Config :=
  { fontBase := machineFontBase, fontData := machineFontData, ext8xy0Fx07 := false }

/-- The customary font table of R5, the default of the spec's test vectors
(PRESUMED by the spec itself: from general knowledge, not in its source). -/
def customaryFont : Vector Byte fontBytes :=
  #v[0xF0, 0x90, 0x90, 0x90, 0xF0,  0x20, 0x60, 0x20, 0x20, 0x70,
     0xF0, 0x10, 0xF0, 0x80, 0xF0,  0xF0, 0x10, 0xF0, 0x10, 0xF0,
     0x90, 0x90, 0xF0, 0x10, 0x10,  0xF0, 0x80, 0xF0, 0x10, 0xF0,
     0xF0, 0x80, 0xF0, 0x90, 0xF0,  0xF0, 0x10, 0x20, 0x40, 0x40,
     0xF0, 0x90, 0xF0, 0x90, 0xF0,  0xF0, 0x90, 0xF0, 0x10, 0xF0,
     0xF0, 0x90, 0xF0, 0x90, 0x90,  0xE0, 0x90, 0xE0, 0x90, 0xE0,
     0xF0, 0x80, 0x80, 0x80, 0xF0,  0xE0, 0x90, 0x90, 0x90, 0xE0,
     0xF0, 0x80, 0xF0, 0x80, 0xF0,  0xF0, 0x80, 0xF0, 0x80, 0x80]

/-- The configuration of the spec's test vectors (spec/95_test_vectors.md): `FONT_BASE = 0x000`, the
default font, and the switch as a vector states it. -/
def Config.vectors (ext : Bool) : Config :=
  { fontBase := 0, fontData := customaryFont, ext8xy0Fx07 := ext }

/-! ### The free value -/

/-- The random byte of a step: "a free input under no law" (R70, R100, D13). It is applied to the
counter `State.draws`, so each executed random instruction reads a fresh one. It has no body. Log entry 3. -/
opaque randomByte : Nat → Byte

end Sys2Proof
end

