-- ==== Sys2Proof/WellFormed.lean ====
section
/-! DEFINITION. Which instructions are instructions of a machine with a given configuration. Every
operand field of `Instr` has exactly the width of its encoding field, so no field can be out of range
(spec/30_encoding.md R53: all values of all fields are legal); what is left to check is the
optional extension (spec/00_scope.md R6, spec/30_encoding.md R57). -/

namespace Sys2Proof

/-- The two instructions of spec/48_nonsource_extension.md (R140, R141). -/
def Instr.isExtension : Instr → Bool
  | .ldReg _ _ => true
  | .ldVxDt _ => true
  | .cls | .ret | .jp _ | .call _ | .seImm _ _ | .sneImm _ _ | .seReg _ _ | .ldImm _ _
  | .addImm _ _ | .or _ _ | .and _ _ | .xor _ _ | .addReg _ _ | .sub _ _ | .shr _ _
  | .subn _ _ | .shl _ _ | .sneReg _ _ | .ldI _ | .jpV0 _ | .rnd _ _ | .drw _ _ _
  | .skp _ | .sknp _ | .ldK _ | .ldDt _ | .ldSt _ | .addI _ | .ldF _ | .ldB _
  | .stRegs _ | .ldRegs _ => false

/-- `i` is an instruction of a machine whose switch `EXT_8XY0_FX07` is `ext`: any of the 32, or one of
the extension's two if the switch is on (R6, R8). -/
def Instr.wellFormed (ext : Bool) (i : Instr) : Bool := ext || !i.isExtension

end Sys2Proof
end

