-- ==== Sys2Proof/Decode.lean ====
section
/-! DEFINITION. The decoder, written from the dispatch table of spec/30_encoding.md R54, and after it
the encoder, written from the formats of R52 and the match values of R55 and R57. Both are total. -/

namespace Sys2Proof

/-! ### The fields of an instruction word (R51) -/

/-- The primary opcode `h = op[15:12]`. -/
def fieldH (op : Word) : BitVec 4 := op.extractLsb' 12 4

/-- `x = op[11:8]`. -/
def fieldX (op : Word) : Reg := (op.extractLsb' 8 4).toFin

/-- `y = op[7:4]`. -/
def fieldY (op : Word) : Reg := (op.extractLsb' 4 4).toFin

/-- `n = op[3:0]`, read as a secondary opcode. -/
def fieldN (op : Word) : BitVec 4 := op.extractLsb' 0 4

/-- `n = op[3:0]`, read as the height of a sprite. -/
def fieldHeight (op : Word) : Height := (op.extractLsb' 0 4).toFin

/-- `kk = op[7:0]`. -/
def fieldKK (op : Word) : Byte := op.extractLsb' 0 8

/-- `nnn = op[11:0]`. -/
def fieldNNN (op : Word) : Addr12 := op.extractLsb' 0 12

/-! ### The decoder (R54) -/

/-- Group `0`: only the two exact words. -/
def decode0 (op : Word) : Option Instr :=
  match op with
  | 0x00E0 => some .cls
  | 0x00EE => some .ret
  | _ => none

/-- Group `8`: the low digit selects; `8xy0` only under the extension. -/
def decode8 (ext : Bool) (op : Word) : Option Instr :=
  match fieldN op with
  | 0x0 => if ext then some (.ldReg (fieldX op) (fieldY op)) else none
  | 0x1 => some (.or (fieldX op) (fieldY op))
  | 0x2 => some (.and (fieldX op) (fieldY op))
  | 0x3 => some (.xor (fieldX op) (fieldY op))
  | 0x4 => some (.addReg (fieldX op) (fieldY op))
  | 0x5 => some (.sub (fieldX op) (fieldY op))
  | 0x6 => some (.shr (fieldX op) (fieldY op))
  | 0x7 => some (.subn (fieldX op) (fieldY op))
  | 0xE => some (.shl (fieldX op) (fieldY op))
  | _ => none

/-- Group `E`: the low byte selects. -/
def decodeE (op : Word) : Option Instr :=
  match fieldKK op with
  | 0x9E => some (.skp (fieldX op))
  | 0xA1 => some (.sknp (fieldX op))
  | _ => none

/-- Group `F`: the low byte selects; `Fx07` only under the extension. -/
def decodeF (ext : Bool) (op : Word) : Option Instr :=
  match fieldKK op with
  | 0x07 => if ext then some (.ldVxDt (fieldX op)) else none
  | 0x0A => some (.ldK (fieldX op))
  | 0x15 => some (.ldDt (fieldX op))
  | 0x18 => some (.ldSt (fieldX op))
  | 0x1E => some (.addI (fieldX op))
  | 0x29 => some (.ldF (fieldX op))
  | 0x33 => some (.ldB (fieldX op))
  | 0x55 => some (.stRegs (fieldX op))
  | 0x65 => some (.ldRegs (fieldX op))
  | _ => none

/-- `decode(op)` of R54 and R72: total on the 65536 words, reading nothing but the word (and the
switch, R6). `none` is the answer `Unrecognized` of R56. Fixed digits must match exactly (D2). -/
def decodeWord (ext : Bool) (op : Word) : Option Instr :=
  match fieldH op with
  | 0x0 => decode0 op
  | 0x1 => some (.jp (fieldNNN op))
  | 0x2 => some (.call (fieldNNN op))
  | 0x3 => some (.seImm (fieldX op) (fieldKK op))
  | 0x4 => some (.sneImm (fieldX op) (fieldKK op))
  | 0x5 => if fieldN op = 0x0 then some (.seReg (fieldX op) (fieldY op)) else none
  | 0x6 => some (.ldImm (fieldX op) (fieldKK op))
  | 0x7 => some (.addImm (fieldX op) (fieldKK op))
  | 0x8 => decode8 ext op
  | 0x9 => if fieldN op = 0x0 then some (.sneReg (fieldX op) (fieldY op)) else none
  | 0xA => some (.ldI (fieldNNN op))
  | 0xB => some (.jpV0 (fieldNNN op))
  | 0xC => some (.rnd (fieldX op) (fieldKK op))
  | 0xD => some (.drw (fieldX op) (fieldY op) (fieldHeight op))
  | 0xE => decodeE op
  | 0xF => decodeF ext op
  | _ => none -- a digit has no seventeenth value: no word comes here

/-! ### Decoding bytes -/

/-- The word two consecutive bytes hold: big-endian, the first (lower-address) byte in bits 15:8 (R37). -/
def wordOfBytes (hi lo : Byte) : Word := hi ++ lo

/-- The byte of a word that stands at the lower address: bits 15:8 (R37). -/
def highByte (op : Word) : Byte := op.extractLsb' 8 8

/-- The byte of a word that stands at the higher address: bits 7:0 (R37). -/
def lowByte (op : Word) : Byte := op.extractLsb' 0 8

/-- What the decoder answers on a sequence of bytes: an instruction and the bytes after it, or the
name of what is wrong. -/
inductive Decoded where
  /-- an instruction, and the bytes that follow its two -/
  | instr (i : Instr) (rest : List Byte)
  /-- a word that no row of the table matches (R56); the machine's answer to it is R77 -/
  | unrecognized (op : Word)
  /-- fewer than the two bytes of an instruction (R50) -/
  | truncated (bytes : List Byte)
  deriving DecidableEq, Repr

/-- Decode the instruction at the front of any sequence of bytes: it is always two bytes long (R50, R59). -/
def decodeBytes (ext : Bool) : List Byte → Decoded
  | hi :: lo :: rest =>
    match decodeWord ext (wordOfBytes hi lo) with
    | some i => .instr i rest
    | none => .unrecognized (wordOfBytes hi lo)
  | short => .truncated short

/-! ### The encoder (R52, R55, R57) -/

/-- A register number or a height as its 4-bit field. -/
def nibble (x : Fin 16) : BitVec 4 := BitVec.ofFin x

/-- Format A: `h nnn`. -/
def formatA (h : BitVec 4) (nnn : Addr12) : Word := h ++ nnn

/-- Format XK: `h x kk`. With a fixed function byte for `kk` it is format X. -/
def formatXK (h : BitVec 4) (x : Reg) (kk : Byte) : Word := h ++ nibble x ++ kk

/-- Formats XY and XYN: `h x y n`, where `n` is a fixed function digit or a height. -/
def formatXYN (h : BitVec 4) (x y : Reg) (n : BitVec 4) : Word := h ++ nibble x ++ nibble y ++ n

/-- The word of an instruction. -/
def encode : Instr → Word
  | .cls => 0x00E0
  | .ret => 0x00EE
  | .jp nnn => formatA 0x1 nnn
  | .call nnn => formatA 0x2 nnn
  | .seImm x kk => formatXK 0x3 x kk
  | .sneImm x kk => formatXK 0x4 x kk
  | .seReg x y => formatXYN 0x5 x y 0x0
  | .ldImm x kk => formatXK 0x6 x kk
  | .addImm x kk => formatXK 0x7 x kk
  | .or x y => formatXYN 0x8 x y 0x1
  | .and x y => formatXYN 0x8 x y 0x2
  | .xor x y => formatXYN 0x8 x y 0x3
  | .addReg x y => formatXYN 0x8 x y 0x4
  | .sub x y => formatXYN 0x8 x y 0x5
  | .shr x y => formatXYN 0x8 x y 0x6
  | .subn x y => formatXYN 0x8 x y 0x7
  | .shl x y => formatXYN 0x8 x y 0xE
  | .sneReg x y => formatXYN 0x9 x y 0x0
  | .ldI nnn => formatA 0xA nnn
  | .jpV0 nnn => formatA 0xB nnn
  | .rnd x kk => formatXK 0xC x kk
  | .drw x y n => formatXYN 0xD x y (nibble n)
  | .skp x => formatXK 0xE x 0x9E
  | .sknp x => formatXK 0xE x 0xA1
  | .ldK x => formatXK 0xF x 0x0A
  | .ldDt x => formatXK 0xF x 0x15
  | .ldSt x => formatXK 0xF x 0x18
  | .addI x => formatXK 0xF x 0x1E
  | .ldF x => formatXK 0xF x 0x29
  | .ldB x => formatXK 0xF x 0x33
  | .stRegs x => formatXK 0xF x 0x55
  | .ldRegs x => formatXK 0xF x 0x65
  | .ldReg x y => formatXYN 0x8 x y 0x0
  | .ldVxDt x => formatXK 0xF x 0x07

/-- The two bytes of an instruction in the order memory holds them (R37). -/
def encodeBytes (i : Instr) : List Byte := [highByte (encode i), lowByte (encode i)]

/-! ### The opcode map (R55, R57) -/

/-- One row of the opcode map: a word is the row's iff `op & mask = match`. -/
structure OpcodeRow where
  mnemonic : String
  mask : Word
  value : Word
  deriving DecidableEq, Repr

/-- `op & mask = match`. -/
def OpcodeRow.selects (r : OpcodeRow) (op : Word) : Bool := op &&& r.mask == r.value

/-- The 32 rows of R55, in its order. -/
def opcodeRows : List OpcodeRow := [
  ⟨"CLS", 0xFFFF, 0x00E0⟩,
  ⟨"RET", 0xFFFF, 0x00EE⟩,
  ⟨"JP", 0xF000, 0x1000⟩,
  ⟨"CALL", 0xF000, 0x2000⟩,
  ⟨"SE_IMM", 0xF000, 0x3000⟩,
  ⟨"SNE_IMM", 0xF000, 0x4000⟩,
  ⟨"SE_REG", 0xF00F, 0x5000⟩,
  ⟨"LD_IMM", 0xF000, 0x6000⟩,
  ⟨"ADD_IMM", 0xF000, 0x7000⟩,
  ⟨"OR", 0xF00F, 0x8001⟩,
  ⟨"AND", 0xF00F, 0x8002⟩,
  ⟨"XOR", 0xF00F, 0x8003⟩,
  ⟨"ADD_REG", 0xF00F, 0x8004⟩,
  ⟨"SUB", 0xF00F, 0x8005⟩,
  ⟨"SHR", 0xF00F, 0x8006⟩,
  ⟨"SUBN", 0xF00F, 0x8007⟩,
  ⟨"SHL", 0xF00F, 0x800E⟩,
  ⟨"SNE_REG", 0xF00F, 0x9000⟩,
  ⟨"LD_I", 0xF000, 0xA000⟩,
  ⟨"JP_V0", 0xF000, 0xB000⟩,
  ⟨"RND", 0xF000, 0xC000⟩,
  ⟨"DRW", 0xF000, 0xD000⟩,
  ⟨"SKP", 0xF0FF, 0xE09E⟩,
  ⟨"SKNP", 0xF0FF, 0xE0A1⟩,
  ⟨"LD_K", 0xF0FF, 0xF00A⟩,
  ⟨"LD_DT", 0xF0FF, 0xF015⟩,
  ⟨"LD_ST", 0xF0FF, 0xF018⟩,
  ⟨"ADD_I", 0xF0FF, 0xF01E⟩,
  ⟨"LD_F", 0xF0FF, 0xF029⟩,
  ⟨"LD_B", 0xF0FF, 0xF033⟩,
  ⟨"ST_REGS", 0xF0FF, 0xF055⟩,
  ⟨"LD_REGS", 0xF0FF, 0xF065⟩]

/-- The two rows of R57, recognised only under `EXT_8XY0_FX07`. -/
def extensionRows : List OpcodeRow := [
  ⟨"LD_REG", 0xF00F, 0x8000⟩,
  ⟨"LD_VX_DT", 0xF0FF, 0xF007⟩]

/-- The rows of a machine with the switch as given (R54). -/
def rowsOf (ext : Bool) : List OpcodeRow := if ext then opcodeRows ++ extensionRows else opcodeRows

/-- The mnemonic of an instruction's row in the opcode table. -/
def mnemonicOf : Instr → String
  | .cls => "CLS"
  | .ret => "RET"
  | .jp _ => "JP"
  | .call _ => "CALL"
  | .seImm _ _ => "SE_IMM"
  | .sneImm _ _ => "SNE_IMM"
  | .seReg _ _ => "SE_REG"
  | .ldImm _ _ => "LD_IMM"
  | .addImm _ _ => "ADD_IMM"
  | .or _ _ => "OR"
  | .and _ _ => "AND"
  | .xor _ _ => "XOR"
  | .addReg _ _ => "ADD_REG"
  | .sub _ _ => "SUB"
  | .shr _ _ => "SHR"
  | .subn _ _ => "SUBN"
  | .shl _ _ => "SHL"
  | .sneReg _ _ => "SNE_REG"
  | .ldI _ => "LD_I"
  | .jpV0 _ => "JP_V0"
  | .rnd _ _ => "RND"
  | .drw _ _ _ => "DRW"
  | .skp _ => "SKP"
  | .sknp _ => "SKNP"
  | .ldK _ => "LD_K"
  | .ldDt _ => "LD_DT"
  | .ldSt _ => "LD_ST"
  | .addI _ => "ADD_I"
  | .ldF _ => "LD_F"
  | .ldB _ => "LD_B"
  | .stRegs _ => "ST_REGS"
  | .ldRegs _ => "LD_REGS"
  | .ldReg _ _ => "LD_REG"
  | .ldVxDt _ => "LD_VX_DT"

/-! ### The interface to the opcode table -/

/-- The word whose bits the table numbers `w`, bits at and above `nbits` read as 0. Every row of the
table has 16 bits, so one word is the longest instruction. -/
def tableWord (nbits w : Nat) : Word := BitVec.ofNat 16 (w % 2 ^ nbits)

/-- The instruction this machine's decoder reads from the bytes of a table word, laid out as memory
holds them. -/
def decodeTableWord (nbits w : Nat) : Option Instr :=
  match decodeBytes Config.machine.ext8xy0Fx07
      [highByte (tableWord nbits w), lowByte (tableWord nbits w)] with
  | .instr i _ => some i
  | .unrecognized _ => none
  | .truncated _ => none

end Sys2Proof
end

