-- ==== Sys2Proof/Machine/State.lean ====
section
/-! DEFINITION. The state of the machine (spec/10_state.md R22: ten items and nothing else; beside them
one counter of the model's own), the reasons a step can stop (spec/60_exceptions.md R150), the interface
events (spec/00_scope.md R7) and their answers (spec/40_fetch_decode_execute.md R78), and the state
after reset (spec/10_state.md R23). -/

namespace Sys2Proof.Machine

/-- Memory as the list of the bytes that differ from the reset contents, in rising order of address
(`Memory.wf` in Machine/Ops.lean states the canonical form; log entry 11). -/
abbrev Memory := List Host.Cell

/-- The 64 x 32 grid, one row of 64 pixels after the other; `true` is lit (R17). -/
abbrev Framebuffer := Vector (Vector Bool 64) 32

/-- Everything the spec gives the machine, and nothing else (R22).
* `v`: `V[0] .. V[15]`, `VF` the last (R10, R11);
* `i`: the index register `I` (R12); `pc`: the program counter (R13);
* `stack`, `sp`: the call stack and the number of entries on it, `0 .. 16` (R15, R16; log entry 13);
* `fb`: the framebuffer (R17); `dt`, `st`: the delay and sound timers (R18, R19);
* `keys`: the key flags, `true` for down (R20); `mem`: memory (R21). -/
structure SpecState where
  v : Vector Byte 16
  i : Word
  pc : Word
  stack : Vector Word 16
  sp : Fin 17
  fb : Framebuffer
  dt : Byte
  st : Byte
  keys : Vector Bool 16
  mem : Memory
  deriving DecidableEq, Repr

/-- The spec's state, and beside it `draws`, which is no state of the spec's (R22 (a)) but the model's
own, for the host's interface, whose step takes no input: it selects the free random byte of the next
random instruction. No event of the spec reads or writes it (R100; log entry 3). -/
structure State extends SpecState where
  draws : Nat
  deriving DecidableEq, Repr

/-- The fatal kinds of R150, each with the value it carries. A fault stops the step with no change of
state (R76, R158): safe, since nothing can be proved of what comes after it. -/
inductive Fault where
  /-- Code 1 (R151). Raised by the fetch with `pc`, and by DRW, LD_B, ST_REGS, LD_REGS with the highest
  address the instruction would have accessed. Safe: the machine stops as the spec says. -/
  | addressOutOfRange (addr : Nat)
  /-- Code 2 (R152). Raised by CALL with its `pc` when the stack is full. Safe. -/
  | stackOverflow (pc : Word)
  /-- Code 3 (R153). Raised by RET with its `pc` when the stack is empty. Safe. -/
  | stackUnderflow (pc : Word)
  /-- Code 4 (R154). Raised by SKP and SKNP with the register value when it is above 15. Safe: the
  spec's choice where its source is silent (log entry 16). -/
  | keyIndexOutOfRange (value : Byte)
  deriving DecidableEq, Repr

/-- Why an instruction has no meaning in the model. -/
inductive Refusal where
  /-- Raised by `exec` for an instruction the model gives no meaning, by its mnemonic. Every
  instruction has a meaning, so no step raises it. Safe. -/
  | notModelled (mnemonic : String)
  deriving DecidableEq, Repr

/-- The interface events of R7. -/
inductive Event where
  /-- `RESET` (R180) -/
  | reset
  /-- `LOAD(bytes)` (R182) -/
  | load (bytes : List Byte)
  /-- `STEP(rnd)` (R70) -/
  | step (rnd : Byte)
  /-- `TICK` (R170) -/
  | tick
  /-- `KEYS(k)` (R173) -/
  | keys (k : Vector Bool 16)
  deriving DecidableEq, Repr

/-- What an event answers: the outcomes of a step (R78), the answers of a load (R182), or nothing. -/
inductive Answer where
  /-- `RESET`, `TICK` and `KEYS` have no outcome (R180, R170, R173). -/
  | silent
  /-- `LOAD` accepted (R182). -/
  | loaded
  /-- `LOAD` of more than 3584 bytes, rejected (R182). -/
  | programTooLarge
  /-- `STEP` outcome `Ok` (R78). -/
  | ok
  /-- `STEP` outcome `Unrecognized(op)`, non-fatal (R77, R78). -/
  | unrecognized (op : Word)
  /-- `STEP` outcome `Fatal(kind, info)` (R78, R158). -/
  | fatal (f : Fault)
  /-- The step of an instruction without a meaning: no event answers it (log entry 8). -/
  | refused (r : Refusal)
  deriving DecidableEq, Repr

/-- What the host can read (R24): the framebuffer and the two timers. -/
structure HostView where
  fb : Framebuffer
  dt : Byte
  st : Byte
  deriving DecidableEq, Repr

/-- All pixels unlit. -/
abbrev Framebuffer.blank : Framebuffer := Vector.replicate 32 (Vector.replicate 64 false)

/-- The state after construction and after `RESET` (R23, R180, R181). Memory lists nothing, so every
address reads as its reset contents: the font at `FONT_BASE`, 0 elsewhere. The source gives memory and
`pc`; the zeros of the other items are the spec's choice (D14; log entry 5). -/
def State.reset : State where
  v := Vector.replicate 16 0
  i := 0
  pc := 0x200
  stack := Vector.replicate 16 0
  sp := 0
  fb := Framebuffer.blank
  dt := 0
  st := 0
  keys := Vector.replicate 16 false
  mem := []
  draws := 0

end Sys2Proof.Machine
end

