-- ==== Sys2Proof/Machine/Ops.lean ====
section
/-! DEFINITION. The named operations over memory, registers, the stack, the framebuffer, the keys and
`pc`, each written once: spec/20_memory.md, spec/10_state.md, spec/40_fetch_decode_execute.md R71, R73,
R76, and ending a step with a fatal outcome (spec/60_exceptions.md R158). The instructions' meanings are
made of these. -/

namespace Sys2Proof.Machine

/-- The outcome of an instruction: a next state, a fault, or a refusal. -/
abbrev Result := Host.Outcome State Fault Refusal

/-! ### Memory (R30 to R36) -/

/-- What an address reads as when nothing has written it: its reset contents, `FONT_DATA` in the 80
bytes from `FONT_BASE` and 0 everywhere else (R23, R31, R32). The font lies below `0x200` (R4). -/
def Memory.background (c : Config) (a : Nat) : Byte :=
  if a < progBase then
    if c.fontBase.val ≤ a then (c.fontData[a - c.fontBase.val]?).getD 0 else 0
  else 0

/-- The byte listed for an address, if one is. -/
def Memory.lookup : Memory → Nat → Option Byte
  | [], _ => none
  | (b, w) :: rest, a => if a = b then some w else Memory.lookup rest a

/-- The list with a byte listed for an address, in the place its order gives it. -/
def Memory.insert : Memory → Nat → Byte → Memory
  | [], a, x => [(a, x)]
  | (b, w) :: rest, a, x =>
    if a < b then (a, x) :: (b, w) :: rest
    else if a = b then (a, x) :: rest
    else (b, w) :: Memory.insert rest a x

/-- The list with nothing listed for an address. -/
def Memory.erase (m : Memory) (a : Nat) : Memory := m.filter fun p => p.1 != a

/-- `MemRead(a, 1)` (R33, R41). -/
def Memory.read (c : Config) (m : Memory) (a : Nat) : Byte :=
  (m.lookup a).getD (Memory.background c a)

/-- `MemWrite(a, 1, x)` (R33, R40): writing what the address reads as unlisted leaves it unlisted. -/
def Memory.write (c : Config) (m : Memory) (a : Nat) (x : Byte) : Memory :=
  if x = Memory.background c a then m.erase a else m.insert a x

/-- The bytes `xs` written at ascending addresses from `a` (R33, R38). -/
def Memory.writeBytes (c : Config) (m : Memory) (a : Nat) : List Byte → Memory
  | [] => m
  | x :: xs => Memory.writeBytes c (Memory.write c m a x) (a + 1) xs

/-- The `n` bytes at ascending addresses from `a` (R33, R38). -/
def Memory.readBytes (c : Config) (m : Memory) (a n : Nat) : List Byte :=
  (List.range n).map fun k => Memory.read c m (a + k)

/-- The canonical form: addresses strictly rising, each one of memory (R30), and no entry equal to what
its address reads as unlisted. -/
abbrev Memory.wf (c : Config) (m : Memory) : Prop :=
  m.Pairwise (fun p q => p.1 < q.1) ∧ ∀ p ∈ m, p.1 < memSize ∧ p.2 ≠ Memory.background c p.1

/-- One byte of this machine's memory, as its instructions read it. -/
def State.readMem (s : State) (a : Nat) : Byte := Memory.read Config.machine s.mem a

/-! ### Ending a step with a fatal outcome (R76, R158)

This is all there is of taking an exception: no handler, no vector, no saved register, no mode; the
outcome goes to the host and the state stays as it was. There is no return from one (R159). -/

/-- `raise kind(info)`. -/
def raise (f : Fault) : Result := .fault f

/-- The numeric codes of R150. -/
def faultCode : Fault → Nat
  | .addressOutOfRange _ => 1
  | .stackOverflow _ => 2
  | .stackUnderflow _ => 3
  | .keyIndexOutOfRange _ => 4

/-- The range check of a data access whose highest address is `hi`, made before anything is written:
`k` runs only if the whole range lies in memory (R34, R35, R36). -/
def inRange (hi : Nat) (k : Result) : Result :=
  if hi > lastAddr then raise (.addressOutOfRange hi) else k

/-! ### Registers -/

/-- `V[x]` (R10). -/
def State.readV (s : State) (x : Reg) : Byte := s.v[x]

/-- `V[x] <- b` (R10). -/
def State.writeV (s : State) (x : Reg) (b : Byte) : State := { s with v := s.v.set x b }

/-- `V[x] <- b` and then `VF <- flag`, in this order: with `x = 15` the flag is what stays (R75; log
entry 19). -/
def State.writeVFlag (s : State) (x : Reg) (b flag : Byte) : State :=
  (s.writeV x b).writeV regF flag

/-- `V[0] .. V[x]` in order: the operands of the block store (R114). -/
def State.firstRegs (s : State) (x : Reg) : List Byte := s.v.toList.take (x.val + 1)

/-- `V[k] <- bs[k]` for every `k` that `bs` has a byte for (R115). -/
def State.writeFirstRegs (s : State) (bs : List Byte) : State :=
  { s with v := Vector.ofFn fun k => (bs[k.val]?).getD s.v[k] }

/-- `I <- a` (R12). -/
def State.writeI (s : State) (a : Word) : State := { s with i := a }

/-- `DT <- b` (R18). -/
def State.writeDT (s : State) (b : Byte) : State := { s with dt := b }

/-- `ST <- b` (R19). -/
def State.writeST (s : State) (b : Byte) : State := { s with st := b }

/-- The next random instruction reads the next free value (log entry 3). -/
def State.nextDraw (s : State) : State := { s with draws := s.draws + 1 }

/-! ### The program counter (R73) -/

/-- The width of an instruction in bytes (R3, R50). -/
def instrWidth : Word := 2

/-- `pc <- target`. -/
def State.jump (s : State) (target : Word) : State := { s with pc := target }

/-- `pc <- pc + 2`: on to the next instruction. -/
def State.advance (s : State) : State := s.jump (s.pc + instrWidth)

/-- `pc <- (cond ? pc + 4 : pc + 2)`: a conditional skip (R73, R59). -/
def State.skipIf (s : State) (cond : Bool) : State :=
  if cond then s.jump (s.pc + instrWidth + instrWidth) else s.advance

/-! ### The call stack (R15, R16) -/

/-- `STACK[SP] <- a; SP <- SP + 1`, or `none` if `SP = 16`. -/
def State.push (s : State) (a : Word) : Option State :=
  if h : s.sp.val < stackDepth then
    some { s with stack := s.stack.set s.sp.val a, sp := ⟨s.sp.val + 1, Nat.succ_lt_succ h⟩ }
  else none

/-- `(STACK[SP - 1], SP <- SP - 1)`, or `none` if `SP = 0`. The popped entry is left in the array (R80;
log entry 14). -/
def State.pop (s : State) : Option (Word × State) :=
  if h : 0 < s.sp.val then
    some (s.stack[s.sp.val - 1]'(by omega), { s with sp := ⟨s.sp.val - 1, by omega⟩ })
  else none

/-! ### The framebuffer (R17, R122) -/

/-- `FB[x, y]`. -/
def Framebuffer.pixel (fb : Framebuffer) (x : Col) (y : Row) : Bool := fb[y][x]

/-- `FB[x, y] <- b`. -/
def Framebuffer.setPixel (fb : Framebuffer) (x : Col) (y : Row) (b : Bool) : Framebuffer :=
  fb.set y (fb[y].set x b)

/-- A column reduced modulo the screen's width (R122). -/
def wrapCol (n : Nat) : Col := ⟨n % 64, Nat.mod_lt _ (by decide)⟩

/-- A row reduced modulo the screen's height (R122). -/
def wrapRow (n : Nat) : Row := ⟨n % 32, Nat.mod_lt _ (by decide)⟩

/-- One incoming bit meets one pixel: exclusive-or, and a hit if a lit pixel is turned off (R121). -/
def blendPixel (acc : Framebuffer × Bool) (x : Col) (y : Row) (bit : Bool) : Framebuffer × Bool :=
  (acc.1.setPixel x y (acc.1.pixel x y ^^ bit), acc.2 || (bit && acc.1.pixel x y))

/-- One sprite row: bit 7 of the byte at column offset 0, bit 0 at column offset 7, every pixel wrapped
on its own (R122, R123; log entry 18). -/
def blendRow (acc : Framebuffer × Bool) (x0 : Col) (y : Row) (b : Byte) : Framebuffer × Bool :=
  (List.range 8).foldl (fun a k => blendPixel a (wrapCol (x0.val + k)) y (b.getLsbD (7 - k))) acc

/-- Sprite rows from row offset `r` on, each wrapped on its own (R121, R122). -/
def blendRows (acc : Framebuffer × Bool) (x0 : Col) (y0 : Row) (r : Nat) :
    List Byte → Framebuffer × Bool
  | [] => acc
  | b :: rest => blendRows (blendRow acc x0 (wrapRow (y0.val + r)) b) x0 y0 (r + 1) rest

/-- A whole sprite blended into the framebuffer, with its collision flag, false at the start (R121). -/
def drawSprite (fb : Framebuffer) (x0 : Col) (y0 : Row) (rows : List Byte) : Framebuffer × Bool :=
  blendRows (fb, false) x0 y0 0 rows

/-! ### The keys (R20, R132) -/

/-- `KEY[k]`. -/
def State.keyDown (s : State) (k : Key) : Bool := s.keys[k]

/-- The key flags scanned "in a fixed index order (0 through 15)": the first key that is down (R132). -/
def State.firstKey (s : State) : Option Key := (List.finRange 16).find? fun k => s.keyDown k

/-! ### The fetch (R37, R71) -/

/-- The two bytes at `pc` and `pc + 1` as one big-endian word, or the fatal outcome when the second lies
outside memory. The sum is over the integers; nothing changes; `pc` may be odd (R39). -/
def fetch (c : Config) (s : State) : Except Fault Word :=
  if s.pc.toNat + 1 > lastAddr then .error (.addressOutOfRange s.pc.toNat)
  else .ok (wordOfBytes (Memory.read c s.mem s.pc.toNat) (Memory.read c s.mem (s.pc.toNat + 1)))

end Sys2Proof.Machine
end

