-- ==== Sys2Proof/Machine/Operands.lean ====
section
/-! DEFINITION. The operand forms (spec/30_encoding.md R53): registers, immediates and addresses as the
instructions use them. Every value is unsigned and used as its bits stand, never sign-extended or
scaled; the only memory operand is `I` plus an offset the instruction generates (spec/20_memory.md
R33, R36). -/

namespace Sys2Proof.Machine

/-- `zext_16(nnn)`: a jump or call target, a new `I`, a base (R53). -/
def targetOf (nnn : Addr12) : Word := nnn.setWidth 16

/-- `zext_16(b)`: a register as an offset of a jump or of `I` (R87, R111). -/
def zextByte (b : Byte) : Word := b.setWidth 16

/-- `V[x][3:0]`: the digit of the font instruction; the high nibble is ignored (R112). -/
def lowDigit (b : Byte) : Nat := b.toNat % 16

/-- `FONT_BASE + 5 * d`, at most `0x1FB` (R112). -/
def glyphAddr (c : Config) (d : Nat) : Word := BitVec.ofNat 16 (c.fontBase.val + glyphBytes * d)

/-- The effective address `I + offset`, over the integers, without wrap (R36). -/
def State.dataAddr (s : State) (offset : Nat) : Nat := s.i.toNat + offset

/-- A register value as a key number, if it is one: `0 .. 15` (R130). -/
def keyOf (b : Byte) : Option Key := if h : b.toNat < 16 then some ⟨b.toNat, h⟩ else none

/-- A key number as a register value (R132). -/
def keyByte (k : Key) : Byte := BitVec.ofNat 8 k.val

/-- `V[x] mod 64`: a start column (R121). -/
def startCol (b : Byte) : Col := wrapCol b.toNat

/-- `V[y] mod 32`: a start row (R121). -/
def startRow (b : Byte) : Row := wrapRow b.toNat

/-- Hundreds, tens and ones of a byte, each a whole byte (R113). -/
def bcdDigits (b : Byte) : List Byte :=
  [BitVec.ofNat 8 (b.toNat / 100), BitVec.ofNat 8 (b.toNat / 10 % 10), BitVec.ofNat 8 (b.toNat % 10)]

end Sys2Proof.Machine
end

