-- ==== Sys2Proof/Machine/Flags.lean ====
section
/-! DEFINITION. The arithmetic of 8-bit registers and the values of the flag `VF`
(spec/42_register_alu.md R101, spec/10_state.md R11): operands as unsigned integers, the exact result,
then the low 8 bits. -/

namespace Sys2Proof.Machine

/-- A flag is 0 or 1 (R11). -/
def flagByte (b : Bool) : Byte := if b then 1 else 0

/-- Wrapping addition: `(a + b) mod 256` (R101 (a)). -/
def addBytes (a b : Byte) : Byte := BitVec.ofNat 8 (a.toNat + b.toNat)

/-- The carry: 1 iff the unsigned sum exceeds 255 (R101 (a), R95). -/
def carryFlag (a b : Byte) : Byte := flagByte (decide (a.toNat + b.toNat > 255))

/-- Wrapping subtraction: `(a - b) mod 256` (R101 (b)). -/
def subBytes (a b : Byte) : Byte := BitVec.ofNat 8 (a.toNat + 256 - b.toNat)

/-- The no-borrow flag: 1 iff minuend >= subtrahend (R101 (b), R96, R98). -/
def noBorrowFlag (a b : Byte) : Byte := flagByte (decide (a.toNat ≥ b.toNat))

/-- One position to the right, 0 in at the top (R101 (d), R97). -/
def shiftRight (a : Byte) : Byte := a >>> 1

/-- The bit a right shift moves out: bit 0 (R97). -/
def shiftedOutRight (a : Byte) : Byte := flagByte (a.getLsbD 0)

/-- One position to the left, 0 in at the bottom, the low 8 bits kept (R101 (d), R99). -/
def shiftLeft (a : Byte) : Byte := a <<< 1

/-- The bit a left shift moves out: bit 7 (R99). -/
def shiftedOutLeft (a : Byte) : Byte := flagByte (a.getLsbD 7)

end Sys2Proof.Machine
end

