-- ==== Sys2Proof/Machine/Alu.lean ====
section
/-! DEFINITION. Register load, arithmetic, logic, shifts and the random instruction:
spec/42_register_alu.md R90 to R101. Operands are read from the state before the instruction (R74). -/

namespace Sys2Proof.Machine

/-- LD Vx, kk (R90). -/
def execLdImm (x : Reg) (kk : Byte) (s : State) : Result := .next (s.writeV x kk).advance

/-- ADD Vx, kk (R91): no flag. -/
def execAddImm (x : Reg) (kk : Byte) (s : State) : Result :=
  .next (s.writeV x (addBytes (s.readV x) kk)).advance

/-- OR Vx, Vy (R92): `VF` unchanged unless it is the destination. -/
def execOr (x y : Reg) (s : State) : Result := .next (s.writeV x (s.readV x ||| s.readV y)).advance

/-- AND Vx, Vy (R93). -/
def execAnd (x y : Reg) (s : State) : Result := .next (s.writeV x (s.readV x &&& s.readV y)).advance

/-- XOR Vx, Vy (R94). -/
def execXor (x y : Reg) (s : State) : Result := .next (s.writeV x (s.readV x ^^^ s.readV y)).advance

/-- ADD Vx, Vy (R95). -/
def execAddReg (x y : Reg) (s : State) : Result :=
  .next (s.writeVFlag x (addBytes (s.readV x) (s.readV y)) (carryFlag (s.readV x) (s.readV y))).advance

/-- SUB Vx, Vy (R96). -/
def execSub (x y : Reg) (s : State) : Result :=
  .next (s.writeVFlag x (subBytes (s.readV x) (s.readV y)) (noBorrowFlag (s.readV x) (s.readV y))).advance

/-- SHR Vx (R97): `Vy` is neither read nor written. -/
def execShr (x _y : Reg) (s : State) : Result :=
  .next (s.writeVFlag x (shiftRight (s.readV x)) (shiftedOutRight (s.readV x))).advance

/-- SUBN Vx, Vy (R98). -/
def execSubn (x y : Reg) (s : State) : Result :=
  .next (s.writeVFlag x (subBytes (s.readV y) (s.readV x)) (noBorrowFlag (s.readV y) (s.readV x))).advance

/-- SHL Vx (R99): `Vy` is neither read nor written. -/
def execShl (x _y : Reg) (s : State) : Result :=
  .next (s.writeVFlag x (shiftLeft (s.readV x)) (shiftedOutLeft (s.readV x))).advance

/-- The state after RND Vx, kk with the random byte `rnd` (R100). -/
def State.masked (s : State) (rnd : Byte) (x : Reg) (kk : Byte) : State :=
  (s.writeV x (rnd &&& kk)).advance

/-- RND Vx, kk on a step whose input is the random byte `rnd` (R100). The counter of free values plays
no part in it (R22 (a)). -/
def execRndWith (rnd : Byte) (x : Reg) (kk : Byte) (s : State) : Result := .next (s.masked rnd x kk)

/-- RND Vx, kk where nothing supplies the input: the random byte is the free value the model's counter
selects, and the counter moves on (R100; log entry 3). -/
def execRnd (x : Reg) (kk : Byte) (s : State) : Result :=
  .next (s.masked (randomByte s.draws) x kk).nextDraw

end Sys2Proof.Machine
end

