-- ==== Sys2Proof/Machine/Control.lean ====
section
/-! DEFINITION. Control transfer: spec/41_control_transfer.md R80 to R88. -/

namespace Sys2Proof.Machine

/-- RET (R80): pop the stack into `pc`; fatal if it is empty. -/
def execRet (s : State) : Result :=
  match s.pop with
  | none => raise (.stackUnderflow s.pc)
  | some (target, t) => .next (t.jump target)

/-- JP nnn (R81). -/
def execJp (nnn : Addr12) (s : State) : Result := .next (s.jump (targetOf nnn))

/-- CALL nnn (R82): push the address of the instruction after the call; fatal if the stack is full. -/
def execCall (nnn : Addr12) (s : State) : Result :=
  match s.push (s.pc + instrWidth) with
  | none => raise (.stackOverflow s.pc)
  | some t => .next (t.jump (targetOf nnn))

/-- SE Vx, kk (R83). -/
def execSeImm (x : Reg) (kk : Byte) (s : State) : Result := .next (s.skipIf (s.readV x == kk))

/-- SNE Vx, kk (R84). -/
def execSneImm (x : Reg) (kk : Byte) (s : State) : Result := .next (s.skipIf (s.readV x != kk))

/-- SE Vx, Vy (R85). -/
def execSeReg (x y : Reg) (s : State) : Result := .next (s.skipIf (s.readV x == s.readV y))

/-- SNE Vx, Vy (R86). -/
def execSneReg (x y : Reg) (s : State) : Result := .next (s.skipIf (s.readV x != s.readV y))

/-- JP V0, nnn (R87): the sum is not reduced modulo `0x1000`, and fits 16 bits. -/
def execJpV0 (nnn : Addr12) (s : State) : Result :=
  .next (s.jump (targetOf nnn + zextByte (s.readV reg0)))

end Sys2Proof.Machine
end

