-- ==== Sys2Proof/Machine/Display.lean ====
section
/-! DEFINITION. The display instructions: spec/44_display.md R120 to R123. -/

namespace Sys2Proof.Machine

/-- CLS (R120): `VF` is unchanged. -/
def execCls (s : State) : Result := .next { s with fb := Framebuffer.blank }.advance

/-- DRW Vx, Vy, n (R121) over the rows already read: the start coordinates are the registers' values
before `VF` is written (R74). -/
def drawAt (x y : Reg) (rows : List Byte) (s : State) : State :=
  let drawn := drawSprite s.fb (startCol (s.readV x)) (startRow (s.readV y)) rows
  ({ s with fb := drawn.1 }.writeV regF (flagByte drawn.2)).advance

/-- DRW Vx, Vy, n (R121). With `n = 0` nothing is read, nothing is checked and nothing drawn, and
`VF <- 0` (log entry 17). -/
def execDrwWith (c : Config) (x y : Reg) (n : Height) (s : State) : Result :=
  if n.val = 0 then .next (drawAt x y [] s)
  else inRange (s.dataAddr (n.val - 1))
    (.next (drawAt x y (Memory.readBytes c s.mem (s.dataAddr 0) n.val) s))

/-- DRW Vx, Vy, n (R121). -/
def execDrw (x y : Reg) (n : Height) (s : State) : Result := execDrwWith Config.machine x y n s

end Sys2Proof.Machine
end

