-- ==== Sys2Proof/Machine/Extension.lean ====
section
/-! DEFINITION. The two instructions of the optional extension: spec/48_nonsource_extension.md R140,
R141. The decoder yields them only with the switch `EXT_8XY0_FX07` on, which it is not for this
hardware (spec/00_scope.md R6; log entry 4). -/

namespace Sys2Proof.Machine

/-- LD Vx, Vy (R140). -/
def execLdReg (x y : Reg) (s : State) : Result := .next (s.writeV x (s.readV y)).advance

/-- LD Vx, DT (R141). -/
def execLdVxDt (x : Reg) (s : State) : Result := .next (s.writeV x s.dt).advance

end Sys2Proof.Machine
end

