-- ==== Sys2Proof/Machine/IndexMemory.lean ====
section
/-! DEFINITION. The index register and the memory instructions: spec/43_index_memory.md R110 to R115.
The four that read memory or the font parameters are written for any configuration and then taken at
this machine's. -/

namespace Sys2Proof.Machine

/-- LD I, nnn (R110). -/
def execLdI (nnn : Addr12) (s : State) : Result := .next (s.writeI (targetOf nnn)).advance

/-- ADD I, Vx (R111): wraps at 16 bits, no flag. -/
def execAddI (x : Reg) (s : State) : Result := .next (s.writeI (s.i + zextByte (s.readV x))).advance

/-- LD F, Vx (R112) with the font at the configuration's base. -/
def execLdFWith (c : Config) (x : Reg) (s : State) : Result :=
  .next (s.writeI (glyphAddr c (lowDigit (s.readV x)))).advance

/-- LD F, Vx (R112). -/
def execLdF (x : Reg) (s : State) : Result := execLdFWith Config.machine x s

/-- LD B, Vx (R113): the three digits at `I`, `I + 1`, `I + 2`, all or none. -/
def execLdBWith (c : Config) (x : Reg) (s : State) : Result :=
  inRange (s.dataAddr 2)
    (.next { s with mem := Memory.writeBytes c s.mem (s.dataAddr 0) (bcdDigits (s.readV x)) }.advance)

/-- LD B, Vx (R113). -/
def execLdB (x : Reg) (s : State) : Result := execLdBWith Config.machine x s

/-- LD [I], Vx (R114): `V[0] .. V[x]` to `I .. I + x`, all or none; `I` unchanged. -/
def execStRegsWith (c : Config) (x : Reg) (s : State) : Result :=
  inRange (s.dataAddr x.val)
    (.next { s with mem := Memory.writeBytes c s.mem (s.dataAddr 0) (s.firstRegs x) }.advance)

/-- LD [I], Vx (R114). -/
def execStRegs (x : Reg) (s : State) : Result := execStRegsWith Config.machine x s

/-- LD Vx, [I] (R115): `I .. I + x` to `V[0] .. V[x]`, all or none; `I` unchanged. -/
def execLdRegsWith (c : Config) (x : Reg) (s : State) : Result :=
  inRange (s.dataAddr x.val)
    (.next (s.writeFirstRegs (Memory.readBytes c s.mem (s.dataAddr 0) (x.val + 1))).advance)

/-- LD Vx, [I] (R115). -/
def execLdRegs (x : Reg) (s : State) : Result := execLdRegsWith Config.machine x s

end Sys2Proof.Machine
end

