-- ==== Sys2Proof/Machine/Keypad.lean ====
section
/-! DEFINITION. The keypad and timer instructions: spec/45_keypad_timers.md R130 to R134. -/

namespace Sys2Proof.Machine

/-- The key number in `V[x]`, or the fatal outcome if it is above 15 (R130, R154; log entry 16). -/
def withKey (s : State) (x : Reg) (k : Key → Result) : Result :=
  match keyOf (s.readV x) with
  | none => raise (.keyIndexOutOfRange (s.readV x))
  | some key => k key

/-- SKP Vx (R130). -/
def execSkp (x : Reg) (s : State) : Result := withKey s x fun k => .next (s.skipIf (s.keyDown k))

/-- SKNP Vx (R131). -/
def execSknp (x : Reg) (s : State) : Result := withKey s x fun k => .next (s.skipIf (!s.keyDown k))

/-- LD Vx, K (R132): the lowest key that is down; with none down nothing changes, `pc` included, and
the outcome is still `Ok`. -/
def execLdK (x : Reg) (s : State) : Result :=
  match s.firstKey with
  | none => .next s
  | some k => .next (s.writeV x (keyByte k)).advance

/-- LD DT, Vx (R133). -/
def execLdDt (x : Reg) (s : State) : Result := .next (s.writeDT (s.readV x)).advance

/-- LD ST, Vx (R134). -/
def execLdSt (x : Reg) (s : State) : Result := .next (s.writeST (s.readV x)).advance

end Sys2Proof.Machine
end

