-- ==== Sys2Proof/Machine/Cycle.lean ====
section
/-! DEFINITION. The event `STEP(rnd)` for any configuration: fetch, decode, execute, and the outcome it
reports (spec/40_fetch_decode_execute.md R70 to R79). Machine/Step.lean takes it at this machine's
configuration. -/

namespace Sys2Proof.Machine

/-- The meaning of an instruction on a step with a given configuration and random byte. Only the
instructions that read the font parameters, memory or the random byte depend on them (R79, R100). -/
def execWith (c : Config) (rnd : Byte) (i : Instr) (s : State) : Result :=
  match i with
  | .rnd x kk => execRndWith rnd x kk s
  | .ldF x => execLdFWith c x s
  | .ldB x => execLdBWith c x s
  | .stRegs x => execStRegsWith c x s
  | .ldRegs x => execLdRegsWith c x s
  | .drw x y n => execDrwWith c x y n s
  | .cls | .ret | .jp _ | .call _ | .seImm _ _ | .sneImm _ _ | .seReg _ _ | .ldImm _ _
  | .addImm _ _ | .or _ _ | .and _ _ | .xor _ _ | .addReg _ _ | .sub _ _ | .shr _ _
  | .subn _ _ | .shl _ _ | .sneReg _ _ | .ldI _ | .jpV0 _ | .skp _ | .sknp _ | .ldK _
  | .ldDt _ | .ldSt _ | .addI _ | .ldReg _ _ | .ldVxDt _ => exec i s

/-- The state after a step and its outcome: anything but a next state leaves the state as it was (R76,
R78). -/
def answerOf (s : State) : Result → State × Answer
  | .next t => (t, .ok)
  | .fault f => (s, .fatal f)
  | .refused r => (s, .refused r)

/-- Fetch, decode, and whatever `run` does with the decoded instruction (R70): the new state and the
outcome. An unrecognized opcode reports the raw word and changes nothing, `pc` included (R77). -/
def cycle (c : Config) (run : Instr → State → Result) (s : State) : State × Answer :=
  match fetch c s with
  | .error f => (s, .fatal f)
  | .ok op =>
    match decodeWord c.ext8xy0Fx07 op with
    | none => (s, .unrecognized op)
    | some i => answerOf s (run i s)

/-- `STEP(rnd)` (R70): the event of the spec, with the random byte as its input. It neither reads nor
writes the model's own counter: the state it works on is the ten items of R22. -/
def stepWith (c : Config) (rnd : Byte) (s : State) : State × Answer := cycle c (execWith c rnd) s

/-- A step's answer as one of the three outcomes of the host's interface. `Unrecognized` is non-fatal:
the machine goes on from the unchanged state (R77, R155; log entry 7). A fatal outcome stops the run
(R158). -/
def outcomeOf : State × Answer → Result
  | (_, .fatal f) => .fault f
  | (_, .refused r) => .refused r
  | (t, .ok) => .next t
  | (t, .unrecognized _) => .next t
  | (t, .silent) => .next t
  | (t, .loaded) => .next t
  | (t, .programTooLarge) => .next t

/-- The state a step needs so that its fetch can succeed: itself, or, where `pc` is one no instruction
can be fetched at, the same state with `pc` at the entry point (log entry 10). -/
def fetchable (s : State) : State :=
  if s.pc.toNat + 1 > lastAddr then s.jump (BitVec.ofNat 16 progBase) else s

/-- A word stored as an instruction at `pc`, its bytes in the order the fetch reads them (R37). -/
def placeWord (s : State) (op : Word) : State :=
  let t := fetchable s
  { t with mem := Memory.writeBytes Config.machine t.mem t.pc.toNat [highByte op, lowByte op] }

end Sys2Proof.Machine
end

