-- ==== Sys2Proof/Machine/Step.lean ====
section
/-! DEFINITION. One step of this machine: `STEP` (spec/40_fetch_decode_execute.md R70) at its
configuration, its input, the random byte, a free value. The host's other events are in Machine/Events.lean. -/

namespace Sys2Proof.Machine

/-- One `STEP` (R70) for the host's interface, which has no input: the random byte is the free value the
model's counter selects, and a random instruction moves the counter on (R100; log entry 3). -/
def step (s : State) : Host.Outcome State Fault Refusal := outcomeOf (cycle Config.machine exec s)

/-- `s` with a table word stored where `step` fetches its next instruction: at `pc` (log entry 10). -/
def State.withFetchWord (s : State) (nbits w : Nat) : State := placeWord s (tableWord nbits w)

end Sys2Proof.Machine
end

