-- ==== Sys2Proof/Machine/Events.lean ====
section
/-! DEFINITION. The interface events (spec/00_scope.md R7) and the host's reads (spec/10_state.md R24):
`RESET` and `LOAD` (spec/70_reset_and_hazards.md R180, R182), `STEP` (R70), `TICK` and `KEYS`
(spec/60_exceptions.md R170, R173), and a run of them in the order the host chooses (R43). -/

namespace Sys2Proof.Machine

/-- One tick of one timer: down by 1, saturating at 0 (R170). -/
def tickTimer (t : Byte) : Byte := if t.toNat > 0 then t - 1 else t

/-- `TICK` (R170): both timers, and nothing else. -/
def State.tick (s : State) : State := { s with dt := tickTimer s.dt, st := tickTimer s.st }

/-- `KEYS(k)` (R173): all 16 flags, and nothing else. -/
def State.setKeys (s : State) (k : Vector Bool 16) : State := { s with keys := k }

/-- `LOAD(bytes)` (R182): the bytes verbatim from `0x200`, or rejected with no byte written; nothing
but memory changes (log entry 22). -/
def State.load (c : Config) (s : State) (bytes : List Byte) : State × Answer :=
  if bytes.length > progMax then (s, .programTooLarge)
  else ({ s with mem := Memory.writeBytes c s.mem progBase bytes }, .loaded)

/-- `RESET` (R180): every piece of the spec's state at its reset value. The counter of free values is no
state of the spec's (R22 (a)): like every event, this one leaves it alone, so a random instruction after
a reset reads a fresh value (log entry 3). -/
def State.resetEvent (s : State) : State := { State.reset with draws := s.draws }

/-- One event: the state after it and its answer (R7). -/
def event (c : Config) (e : Event) (s : State) : State × Answer :=
  match e with
  | .reset => (s.resetEvent, .silent)
  | .load bytes => s.load c bytes
  | .step rnd => stepWith c rnd s
  | .tick => (s.tick, .silent)
  | .keys k => (s.setKeys k, .silent)

/-- The state after a sequence of events, one at a time, in order (R7, R43). -/
def runEvents (c : Config) : List Event → State → State
  | [], s => s
  | e :: rest, s => runEvents c rest (event c e s).1

/-- What the host can read (R24, R174): the framebuffer and the two timers. -/
def State.hostView (s : State) : HostView := { fb := s.fb, dt := s.dt, st := s.st }

/-- The sound observable, `ST != 0` (R175). -/
def State.soundOn (s : State) : Bool := s.st != 0

end Sys2Proof.Machine
end

