-- ==== Sys2Proof/Safety.lean ====
section
/-! DEFINITION. The terms claims are made in: the invariant of the machine, what an instruction leaves
unchanged (its frame), the instruction a state fetches, the shapes of a register instruction's result,
and how a run ends or goes wrong (spec/70_reset_and_hazards.md R192). -/

namespace Sys2Proof.Machine

/-! ### The invariant -/

/-- What holds in every state a run can reach: memory in its canonical form, `pc <= 0x10FE` (R14), and
every return address on the stack at most `0x1000` (R14, R82). -/
structure State.Inv (c : Config) (s : State) : Prop where
  memory : Memory.wf c s.mem
  pcBound : s.pc.toNat ≤ 0x10FE
  stackBound : ∀ k : Fin 16, k.val < s.sp.val → (s.stack[k]).toNat ≤ 0x1000

/-- The reset values of R23, item by item; of memory, what each of its addresses reads as. -/
structure State.AtReset (c : Config) (s : State) : Prop where
  font : ∀ k : Fin fontBytes, Memory.read c s.mem (c.fontBase.val + k.val) = c.fontData[k]
  zero : ∀ a, a ≤ lastAddr → a < c.fontBase.val ∨ c.fontBase.val + 79 < a → Memory.read c s.mem a = 0
  pc : s.pc = 0x200
  v : ∀ r : Reg, s.readV r = 0
  i : s.i = 0
  sp : s.sp.val = 0
  stack : ∀ k : Fin 16, s.stack[k] = 0
  fb : ∀ x y, s.fb.pixel x y = false
  dt : s.dt = 0
  st : s.st = 0
  keys : ∀ k : Key, s.keyDown k = false

/-! ### Frames -/

/-- The pieces of the state, by name. -/
inductive Part where
  | v | i | pc | stack | sp | fb | dt | st | keys | mem | draws
  deriving DecidableEq, Repr

/-- Everything but the parts named in `changed` is in `t` as it was in `s`: every register, every stack
entry, every pixel, every key flag, and every byte of memory, whatever the font parameters are that an
unwritten byte reads as. -/
structure SameExcept (changed : List Part) (s t : State) : Prop where
  v : Part.v ∉ changed → ∀ r : Reg, t.readV r = s.readV r
  i : Part.i ∉ changed → t.i = s.i
  pc : Part.pc ∉ changed → t.pc = s.pc
  stack : Part.stack ∉ changed → ∀ k : Fin 16, t.stack[k] = s.stack[k]
  sp : Part.sp ∉ changed → t.sp = s.sp
  fb : Part.fb ∉ changed → ∀ x y, t.fb.pixel x y = s.fb.pixel x y
  dt : Part.dt ∉ changed → t.dt = s.dt
  st : Part.st ∉ changed → t.st = s.st
  keys : Part.keys ∉ changed → ∀ k : Key, t.keyDown k = s.keyDown k
  mem : Part.mem ∉ changed → ∀ c a, Memory.read c t.mem a = Memory.read c s.mem a
  draws : Part.draws ∉ changed → t.draws = s.draws

/-- `i` at `s` answers a next state in which `V[x]` is `result`, every other register is as before,
`pc` is 2 further, and nothing else has changed. -/
def SetsRegister (i : Instr) (s : State) (x : Reg) (result : Nat) : Prop :=
  ∃ t, exec i s = .next t ∧ (t.readV x).toNat = result ∧ (∀ r, r ≠ x → t.readV r = s.readV r) ∧
    t.pc = s.pc + 2 ∧ SameExcept [.v, .pc] s t

/-- `i` at `s` answers a next state in which `VF` is `flag` (also when `x` is `VF` itself, R75), `V[x]`
is `result` when it is another register, every other register is as before, `pc` is 2 further, and
nothing else has changed. -/
def SetsRegisterAndFlag (i : Instr) (s : State) (x : Reg) (result flag : Nat) : Prop :=
  ∃ t, exec i s = .next t ∧ (x ≠ regF → (t.readV x).toNat = result) ∧ (t.readV regF).toNat = flag ∧
    (∀ r, r ≠ x → r ≠ regF → t.readV r = s.readV r) ∧ t.pc = s.pc + 2 ∧ SameExcept [.v, .pc] s t

/-- `i` at `s` answers a next state in which `pc` is `target` and nothing else has changed. -/
def OnlySetsPc (i : Instr) (s : State) (target : Word) : Prop :=
  ∃ t, exec i s = .next t ∧ t.pc = target ∧ SameExcept [.pc] s t

/-! ### Encodings and fetches -/

/-- The 16-bit number `n` is a word of this machine's instruction `i`. -/
def IsWordOf (n : Nat) (i : Instr) : Prop :=
  decodeWord Config.machine.ext8xy0Fx07 (BitVec.ofNat 16 n) = some i

/-- The bytes at `pc` and `pc + 1` both lie in memory and hold, big-endian, a word that decodes to `i`. -/
def Fetches (c : Config) (s : State) (i : Instr) : Prop :=
  s.pc.toNat + 1 ≤ lastAddr ∧
    decodeWord c.ext8xy0Fx07 (BitVec.ofNat 16
      (256 * (Memory.read c s.mem s.pc.toNat).toNat + (Memory.read c s.mem (s.pc.toNat + 1)).toNat)) = some i

/-! ### The end of a run (R192; log entry 27) -/

/-- A step, with any random byte, has outcome `Ok` and leaves the whole state as it is. -/
def Settled (c : Config) (s : State) : Prop := ∀ rnd, stepWith c rnd s = (s, .ok)

/-- Held at a wait-for-key with no key down: a wait that a `KEYS` event can lift, not an end. -/
def Waiting (c : Config) (s : State) : Prop := (∃ x, Fetches c s (.ldK x)) ∧ s.firstKey = none

/-- The run is over: settled, and not only waiting. -/
def Ended (c : Config) (s : State) : Prop := Settled c s ∧ ¬ Waiting c s

/-- The run has gone wrong: a step is fatal or reports an unrecognized opcode (R158, R187). -/
def GoneWrong (c : Config) (s : State) : Prop :=
  ∃ rnd, (∃ f, (stepWith c rnd s).2 = .fatal f) ∨ (∃ op, (stepWith c rnd s).2 = .unrecognized op)

end Sys2Proof.Machine
end

