-- ==== Sys2Proof/Certificates/Slice0/Obligations.lean ====
section
/-! DEFINITION. The statements about the machine, from the numbered rules of the spec. An encoding is
written as the number its digits stand for (`0x8004 + 0x100 * x + 0x10 * y` for `8xy4`; the numbers are
those of R55, which the spec adopts from general knowledge, its D1, log entry 6), arithmetic as
arithmetic of natural numbers, and a frame as `SameExcept [parts that change]`. A statement about
`exec i s` whose conclusion is `exec i s = .next t` says that the instruction completes there. -/

open Sys2Proof Sys2Proof.Machine

/-! ## Reset, the invariant, and the events of the host -/

/-- R23, R180, R181: the state after construction and after `RESET` is the reset state of R23, for every
admissible font; `RESET` has no outcome. The zeros of all items but memory and `pc` are the spec's own
choice (D14, log entry 5). -/
def Obligations.ResetStateIsTheSpecs : Prop :=
  ∀ c : Config, State.AtReset c State.reset ∧
    ∀ s, State.AtReset c (event c .reset s).1 ∧ (event c .reset s).2 = .silent

/-- The reset state meets the invariant (derived). -/
def Obligations.ResetMeetsInvariant : Prop := ∀ c : Config, State.Inv c State.reset

/-- From every state that meets the invariant, a step leads to one that does: memory stays canonical,
`pc <= 0x10FE`, return addresses `<= 0x1000` (derived: R14 is itself an inference of the spec). -/
def Obligations.EveryStepKeepsInvariant : Prop :=
  ∀ s t, State.Inv Config.machine s → step s = .next t → State.Inv Config.machine t

/-- The same of every event of the host, with every configuration and every random byte. -/
def Obligations.EveryEventKeepsInvariant : Prop :=
  ∀ (c : Config) (e : Event) (s : State), State.Inv c s → State.Inv c (event c e s).1

/-- R14 (an inference of the spec): however the host orders its events after reset, `pc <= 0x10FE`. -/
def Obligations.ReachablePcStaysBelow10FF : Prop :=
  ∀ (c : Config) (es : List Event), (runEvents c es State.reset).pc.toNat ≤ 0x10FE

/-- R170: one tick takes 1 from each timer that is above 0, leaves a timer at 0 at 0, changes nothing
else, and has no outcome. -/
def Obligations.TickDecrementsEachTimer : Prop :=
  ∀ (c : Config) (s : State), ∃ t, event c .tick s = (t, .silent) ∧
    t.dt.toNat = (if s.dt.toNat > 0 then s.dt.toNat - 1 else 0) ∧
    t.st.toNat = (if s.st.toNat > 0 then s.st.toNat - 1 else 0) ∧ SameExcept [.dt, .st] s t

/-- R171 (d): a timer at `v` reads 0 after `v` ticks and stays 0; after `n` ticks each timer is `n`
lower, or 0, and nothing else has changed. -/
def Obligations.TimersRunDownToZeroAndStay : Prop :=
  ∀ (c : Config) (n : Nat) (s : State),
    (runEvents c (List.replicate n .tick) s).dt.toNat = s.dt.toNat - n ∧
    (runEvents c (List.replicate n .tick) s).st.toNat = s.st.toNat - n ∧
    SameExcept [.dt, .st] s (runEvents c (List.replicate n .tick) s)

/-- R173: `KEYS(k)` overwrites all 16 flags, changes nothing else, and cannot fail. -/
def Obligations.KeysOverwritesAllFlags : Prop :=
  ∀ (c : Config) (k : Vector Bool 16) (s : State), ∃ t, event c (.keys k) s = (t, .silent) ∧
    (∀ i : Key, t.keyDown i = k[i]) ∧ SameExcept [.keys] s t

/-- R182: more than 3584 bytes are rejected with nothing written; otherwise the bytes stand verbatim
from `0x200`, every other byte of memory and everything else is as before. -/
def Obligations.LoadCopiesVerbatimOrRejects : Prop :=
  ∀ (bytes : List Byte) (s : State),
    (bytes.length > 3584 → event Config.machine (.load bytes) s = (s, .programTooLarge)) ∧
    (bytes.length ≤ 3584 → ∃ t, event Config.machine (.load bytes) s = (t, .loaded) ∧
      (∀ k, ∀ h : k < bytes.length, t.readMem (0x200 + k) = bytes[k]) ∧
      (∀ a, a < 0x200 ∨ 0x200 + bytes.length ≤ a → t.readMem a = s.readMem a) ∧
      SameExcept [.mem] s t)

/-- R24, R175: the sound observable is `ST != 0`, and what the host can read (the framebuffer and the
timers) is not changed by `LOAD` or `KEYS`. -/
def Obligations.LoadAndKeysKeepTheHostsView : Prop :=
  ∀ (c : Config) (s : State), (s.soundOn = true ↔ s.st.toNat ≠ 0) ∧
    (∀ bytes, (event c (.load bytes) s).1.hostView = s.hostView) ∧
    (∀ k, (event c (.keys k) s).1.hostView = s.hostView)

/-! ## Encoding -/

/-- Decoding the word of a well-formed instruction gives it back: no bit of any encoding is dropped. -/
def Obligations.DecodeOfEncodeIsTheInstruction : Prop :=
  ∀ (ext : Bool) (i : Instr), i.wellFormed ext = true → decodeWord ext (encode i) = some i

/-- An instruction that a word decodes to encodes to that word and is well-formed: each word has one
meaning. -/
def Obligations.EncodeOfDecodeIsTheWord : Prop :=
  ∀ (ext : Bool) (op : Word) (i : Instr), decodeWord ext op = some i →
    encode i = op ∧ i.wellFormed ext = true

/-- R54: a word decodes iff some row of the opcode map selects it, to an instruction with that row's
mnemonic; and no two rows select the same word. -/
def Obligations.DecodeFollowsTheOpcodeMap : Prop :=
  ∀ (ext : Bool) (op : Word),
    (decodeWord ext op = none ↔ ∀ r ∈ rowsOf ext, r.selects op = false) ∧
    (∀ i, decodeWord ext op = some i → ∀ r ∈ rowsOf ext, r.selects op = true → r.mnemonic = mnemonicOf i) ∧
    (∀ r ∈ rowsOf ext, ∀ q ∈ rowsOf ext, r.selects op = true → q.selects op = true → r = q)

/-- R56: the unrecognized words of this hardware are those of the six groups. The digits of the word are
`op / 0x1000`, `op % 0x10` and `op % 0x100`. -/
def Obligations.UnrecognizedWordsAreTheSixGroups : Prop :=
  ∀ op : Word, decodeWord false op = none ↔
    (op.toNat / 0x1000 = 0x0 ∧ op.toNat ≠ 0x00E0 ∧ op.toNat ≠ 0x00EE) ∨
    (op.toNat / 0x1000 = 0x5 ∧ op.toNat % 0x10 ≠ 0) ∨
    (op.toNat / 0x1000 = 0x8 ∧ op.toNat % 0x10 ∈ [0x0, 0x8, 0x9, 0xA, 0xB, 0xC, 0xD, 0xF]) ∨
    (op.toNat / 0x1000 = 0x9 ∧ op.toNat % 0x10 ≠ 0) ∨
    (op.toNat / 0x1000 = 0xE ∧ op.toNat % 0x100 ∉ [0x9E, 0xA1]) ∨
    (op.toNat / 0x1000 = 0xF ∧ op.toNat % 0x100 ∉ [0x0A, 0x15, 0x18, 0x1E, 0x29, 0x33, 0x55, 0x65])

/-- A word of each family, written out from the spec's examples, decodes to its instruction. -/
def Obligations.ExampleWordsDecode : Prop :=
  IsWordOf 0x00E0 .cls ∧ IsWordOf 0x00EE .ret ∧ IsWordOf 0x1ABC (.jp 0xABC) ∧
  IsWordOf 0x220A (.call 0x20A) ∧ IsWordOf 0x332A (.seImm 3 0x2A) ∧ IsWordOf 0x9120 (.sneReg 1 2) ∧
  IsWordOf 0x6AFF (.ldImm 10 0xFF) ∧ IsWordOf 0x8124 (.addReg 1 2) ∧ IsWordOf 0x81F6 (.shr 1 15) ∧
  IsWordOf 0xC30F (.rnd 3 0x0F) ∧ IsWordOf 0xA2F0 (.ldI 0x2F0) ∧ IsWordOf 0xF255 (.stRegs 2) ∧
  IsWordOf 0xD125 (.drw 1 2 5) ∧ IsWordOf 0xE29E (.skp 2) ∧ IsWordOf 0xF518 (.ldSt 5)

/-! ## The step -/

/-- R71, R37: the fetch reads the bytes at `pc` and `pc + 1`, the first in bits 15:8; it is fatal if
`pc + 1 > 0xFFF`, and then the step is fatal with no change of state. That the outcome carries `pc` is the
spec's own choice (its D17). -/
def Obligations.FetchIsBigEndianAndBounded : Prop :=
  ∀ (c : Config) (s : State),
    (s.pc.toNat + 1 > 0xFFF → fetch c s = .error (.addressOutOfRange s.pc.toNat) ∧
      ∀ rnd, stepWith c rnd s = (s, .fatal (.addressOutOfRange s.pc.toNat))) ∧
    (s.pc.toNat + 1 ≤ 0xFFF → ∃ op : Word, fetch c s = .ok op ∧
      op.toNat / 0x100 = (Memory.read c s.mem s.pc.toNat).toNat ∧
      op.toNat % 0x100 = (Memory.read c s.mem (s.pc.toNat + 1)).toNat)

/-- R70: when the two bytes at `pc` hold, big-endian, a word that decodes to `i`, the step is `exec i` at
this very state; nothing is added around it (no fetch increment, no delay slot). -/
def Obligations.StepRunsTheDecodedInstruction : Prop :=
  ∀ (s : State) (i : Instr), s.pc.toNat + 1 ≤ 0xFFF →
    IsWordOf (256 * (s.readMem s.pc.toNat).toNat + (s.readMem (s.pc.toNat + 1)).toNat) i →
    step s = exec i s

/-- A table word placed by `withFetchWord` at a state is what the next step decodes and runs; where the
decoder rejects it, the step goes on from the same state. Both are the model's own interface (log entries
7 and 10). -/
def Obligations.PlacedWordIsRunNext : Prop :=
  ∀ (s : State) (w : Nat), w < 0x10000 →
    (∀ i, decodeTableWord 16 w = some i →
      step (s.withFetchWord 16 w) = exec i (s.withFetchWord 16 w)) ∧
    (decodeTableWord 16 w = none → step (s.withFetchWord 16 w) = .next (s.withFetchWord 16 w))

/-- R77: an unrecognized word is reported with its raw value and changes nothing, `pc` included; every
later step reports the same, also after a tick or a key-state write; and ticks and key-state writes
still act. -/
def Obligations.UnrecognizedOpcodeChangesNothing : Prop :=
  ∀ (c : Config) (s : State) (op : Word), fetch c s = .ok op → decodeWord c.ext8xy0Fx07 op = none →
    (∀ rnd, stepWith c rnd s = (s, .unrecognized op)) ∧
    (∀ rnds : List Byte, runEvents c (rnds.map .step) s = s) ∧
    (∀ rnd, stepWith c rnd (event c .tick s).1 = ((event c .tick s).1, .unrecognized op)) ∧
    (∀ k rnd, stepWith c rnd (event c (.keys k) s).1 = ((event c (.keys k) s).1, .unrecognized op)) ∧
    (event c .tick s).1.dt.toNat = s.dt.toNat - 1 ∧ (event c .tick s).1.st.toNat = s.st.toNat - 1 ∧
    (∀ k, ∀ i : Key, (event c (.keys k) s).1.keyDown i = k[i])

/-- R76, R158: a fatal outcome leaves the whole state as it was, and stepping again gives the same
outcome, whatever the random byte. -/
def Obligations.FatalOutcomeKeepsStateAndRepeats : Prop :=
  ∀ (c : Config) (rnd : Byte) (s : State) (f : Fault), (stepWith c rnd s).2 = .fatal f →
    (stepWith c rnd s).1 = s ∧ ∀ rnd', stepWith c rnd' s = (s, .fatal f)

/-- R151, R152, R153, R154: the step of this machine is fatal exactly in these cases, with exactly these
kinds and values. The values carried, the data-address case and the key-index kind are the spec's own
choices (its D17, D6, D10; log entries 15 and 16). -/
def Obligations.FatalCausesAreExactlyTheSpecs : Prop :=
  ∀ (s : State) (f : Fault), step s = .fault f ↔
    (s.pc.toNat + 1 > 0xFFF ∧ f = .addressOutOfRange s.pc.toNat) ∨
    (Fetches Config.machine s .ret ∧ s.sp.val = 0 ∧ f = .stackUnderflow s.pc) ∨
    (∃ nnn, Fetches Config.machine s (.call nnn) ∧ s.sp.val = 16 ∧ f = .stackOverflow s.pc) ∨
    (∃ x, (Fetches Config.machine s (.skp x) ∨ Fetches Config.machine s (.sknp x)) ∧
      (s.readV x).toNat > 15 ∧ f = .keyIndexOutOfRange (s.readV x)) ∨
    (∃ x y n, Fetches Config.machine s (.drw x y n) ∧ n.val ≥ 1 ∧ s.i.toNat + n.val - 1 > 0xFFF ∧
      f = .addressOutOfRange (s.i.toNat + n.val - 1)) ∨
    (∃ x, Fetches Config.machine s (.ldB x) ∧ s.i.toNat + 2 > 0xFFF ∧
      f = .addressOutOfRange (s.i.toNat + 2)) ∨
    (∃ x, (Fetches Config.machine s (.stRegs x) ∨ Fetches Config.machine s (.ldRegs x)) ∧
      s.i.toNat + x.val > 0xFFF ∧ f = .addressOutOfRange (s.i.toNat + x.val))

/-- R78: the outcome of a step is `Ok`, `Unrecognized` or `Fatal`, never anything else; the machine
refuses no instruction. -/
def Obligations.StepOutcomesAreTheSpecs : Prop :=
  ∀ (c : Config) (rnd : Byte) (s : State),
    (stepWith c rnd s).2 = .ok ∨ (∃ op, stepWith c rnd s = (s, .unrecognized op)) ∨
    (∃ f, stepWith c rnd s = (s, .fatal f))

/-- R22 (a): the random byte and what selects it are no state of the spec's. Every event gives states that
agree on the ten items of the spec the same answer and again states that agree on them, and leaves the
model's counter alone. The host's step is `STEP` with the free byte the counter selects: the same fatal
outcomes, the same ten items, and the counter moved on exactly when a random instruction ran (the counter
is the model's choice, log entry 3). -/
def Obligations.DrawCounterIsOutsideTheSpecsState : Prop :=
  (∀ (c : Config) (e : Event) (s t : State), s.toSpecState = t.toSpecState →
    (event c e s).2 = (event c e t).2 ∧
    (event c e s).1.toSpecState = (event c e t).1.toSpecState ∧ (event c e s).1.draws = s.draws) ∧
  ∀ s : State,
    (∀ f, step s = .fault f ↔ (stepWith Config.machine (randomByte s.draws) s).2 = .fatal f) ∧
    (∀ t, step s = .next t →
      t.toSpecState = (stepWith Config.machine (randomByte s.draws) s).1.toSpecState ∧
      ((∃ x kk, Fetches Config.machine s (.rnd x kk)) → t.draws = s.draws + 1) ∧
      ((∀ x kk, ¬ Fetches Config.machine s (.rnd x kk)) → t.draws = s.draws))

/-- R79, R100: two steps from one state differ only if the instruction is the random one. -/
def Obligations.OnlyRandomDependsOnTheDraw : Prop :=
  ∀ (c : Config) (s : State), (∀ x kk, ¬ Fetches c s (.rnd x kk)) →
    ∀ rnd rnd', stepWith c rnd s = stepWith c rnd' s

/-! ## Whole-machine frames: who writes what -/

/-- R12, R15, R16, R17, R18, R19, R20, R33: of all instructions, only the named ones change each piece
of state: `I` by Annn, Fx1E, Fx29; `SP` and the stack by 2nnn and 00EE (the stack by 2nnn alone); the
framebuffer by 00E0 and Dxyn; `DT` by Fx15; `ST` by Fx18; memory by Fx33 and Fx55; the keys by none. -/
def Obligations.EachPartHasOnlyItsWriters : Prop :=
  ∀ (i : Instr) (s t : State), exec i s = .next t →
    (match i with | .ldI _ | .addI _ | .ldF _ => True | _ => t.i = s.i) ∧
    (match i with | .call _ | .ret => True | _ => t.sp = s.sp) ∧
    (match i with | .call _ => True | _ => ∀ k : Fin 16, t.stack[k] = s.stack[k]) ∧
    (match i with | .cls | .drw _ _ _ => True | _ => ∀ x y, t.fb.pixel x y = s.fb.pixel x y) ∧
    (match i with | .ldDt _ => True | _ => t.dt = s.dt) ∧
    (match i with | .ldSt _ => True | _ => t.st = s.st) ∧
    (match i with | .ldB _ | .stRegs _ => True | _ => ∀ a, t.readMem a = s.readMem a) ∧
    (∀ k : Key, t.keyDown k = s.keyDown k)

/-- R11: the six flag instructions always leave 0 or 1 in `VF`; every other instruction leaves `VF`
unchanged unless it names `VF` as its destination register (the block load with `x = 15`). -/
def Obligations.OnlySixInstructionsWriteTheFlag : Prop :=
  ∀ (i : Instr) (s t : State), exec i s = .next t →
    match i with
    | .addReg _ _ | .sub _ _ | .shr _ _ | .subn _ _ | .shl _ _ | .drw _ _ _ =>
      t.readV regF = 0 ∨ t.readV regF = 1
    | .ldImm x _ | .addImm x _ | .or x _ | .and x _ | .xor x _ | .rnd x _ | .ldK x | .ldRegs x
    | .ldReg x _ | .ldVxDt x => x ≠ regF → t.readV regF = s.readV regF
    | _ => t.readV regF = s.readV regF

/-! ## Control transfer -/

/-- R80: return pops the top entry into `pc`; the stack array keeps its entries; with an empty stack it
is fatal. -/
def Obligations.ReturnPopsIntoPc : Prop :=
  IsWordOf 0x00EE .ret ∧ ∀ s : State,
    (s.sp.val = 0 → exec .ret s = .fault (.stackUnderflow s.pc)) ∧
    (∀ k : Fin 16, s.sp.val = k.val + 1 → ∃ t, exec .ret s = .next t ∧
      t.pc = s.stack[k] ∧ t.sp.val = k.val ∧ SameExcept [.pc, .sp] s t)

/-- R81: jump sets `pc` to the zero-extended address, odd or reserved ones too, and nothing else. -/
def Obligations.JumpSetsPcAbsolute : Prop :=
  ∀ (nnn : Addr12) (s : State), IsWordOf (0x1000 + nnn.toNat) (.jp nnn) ∧
    OnlySetsPc (.jp nnn) s (BitVec.ofNat 16 nnn.toNat)

/-- R82: call pushes the address of the next instruction and jumps; with 16 entries it is fatal. -/
def Obligations.CallPushesReturnAddress : Prop :=
  ∀ (nnn : Addr12) (s : State), IsWordOf (0x2000 + nnn.toNat) (.call nnn) ∧
    (s.sp.val = 16 → exec (.call nnn) s = .fault (.stackOverflow s.pc)) ∧
    (∀ k : Fin 16, s.sp.val = k.val → ∃ t, exec (.call nnn) s = .next t ∧
      t.stack[k] = s.pc + 2 ∧ (∀ j : Fin 16, j ≠ k → t.stack[j] = s.stack[j]) ∧
      t.sp.val = k.val + 1 ∧ t.pc = BitVec.ofNat 16 nnn.toNat ∧ SameExcept [.pc, .sp, .stack] s t)

/-- The source's round trip (95_test_vectors.md S8): after a call at `P`, a return from any state whose
stack is as the call left it goes on at `P + 2`, with the stack pointer as before the call. -/
def Obligations.CallThenReturnResumesAfterCall : Prop :=
  ∀ (nnn : Addr12) (s t u : State), exec (.call nnn) s = .next t → u.sp = t.sp →
    (∀ k : Fin 16, k.val < t.sp.val → u.stack[k] = t.stack[k]) →
    ∃ w, exec .ret u = .next w ∧ w.pc = s.pc + 2 ∧ w.sp = s.sp ∧ SameExcept [.pc, .sp] u w

/-- R83, R84: skip if register equals, or differs from, immediate; only `pc` changes. -/
def Obligations.SkipsOnImmediate : Prop :=
  ∀ (x : Reg) (kk : Byte) (s : State),
    IsWordOf (0x3000 + 0x100 * x.val + kk.toNat) (.seImm x kk) ∧
    IsWordOf (0x4000 + 0x100 * x.val + kk.toNat) (.sneImm x kk) ∧
    OnlySetsPc (.seImm x kk) s (s.pc + if (s.readV x).toNat = kk.toNat then 4 else 2) ∧
    OnlySetsPc (.sneImm x kk) s (s.pc + if (s.readV x).toNat = kk.toNat then 2 else 4)

/-- R85, R86: skip if register equals, or differs from, register; only `pc` changes. -/
def Obligations.SkipsOnRegister : Prop :=
  ∀ (x y : Reg) (s : State),
    IsWordOf (0x5000 + 0x100 * x.val + 0x10 * y.val) (.seReg x y) ∧
    IsWordOf (0x9000 + 0x100 * x.val + 0x10 * y.val) (.sneReg x y) ∧
    OnlySetsPc (.seReg x y) s (s.pc + if (s.readV x).toNat = (s.readV y).toNat then 4 else 2) ∧
    OnlySetsPc (.sneReg x y) s (s.pc + if (s.readV x).toNat = (s.readV y).toNat then 2 else 4)

/-- R87: jump with offset adds `V0`, unsigned and not reduced modulo `0x1000`. -/
def Obligations.JumpWithOffsetAddsV0 : Prop :=
  ∀ (nnn : Addr12) (s : State), IsWordOf (0xB000 + nnn.toNat) (.jpV0 nnn) ∧
    OnlySetsPc (.jpV0 nnn) s (BitVec.ofNat 16 (nnn.toNat + (s.readV 0).toNat)) ∧
    nnn.toNat + (s.readV 0).toNat ≤ 0x10FE

/-! ## Registers and arithmetic -/

/-- R90: load immediate gives exactly the immediate, in `VF` too. -/
def Obligations.LoadImmediateIsExact : Prop :=
  ∀ (x : Reg) (kk : Byte) (s : State), IsWordOf (0x6000 + 0x100 * x.val + kk.toNat) (.ldImm x kk) ∧
    SetsRegister (.ldImm x kk) s x kk.toNat

/-- R91: add immediate wraps modulo 256 and writes no flag. -/
def Obligations.AddImmediateWrapsWithoutFlag : Prop :=
  ∀ (x : Reg) (kk : Byte) (s : State), IsWordOf (0x7000 + 0x100 * x.val + kk.toNat) (.addImm x kk) ∧
    SetsRegister (.addImm x kk) s x (((s.readV x).toNat + kk.toNat) % 256)

/-- R92, R93, R94: or, and, exclusive-or act on each bit and leave `VF` alone unless it is the
destination. -/
def Obligations.LogicActsOnEachBit : Prop :=
  ∀ (x y : Reg) (s : State),
    IsWordOf (0x8001 + 0x100 * x.val + 0x10 * y.val) (.or x y) ∧
    IsWordOf (0x8002 + 0x100 * x.val + 0x10 * y.val) (.and x y) ∧
    IsWordOf (0x8003 + 0x100 * x.val + 0x10 * y.val) (.xor x y) ∧
    ∃ o a e : Byte,
      (∀ k, k < 8 → o.getLsbD k = ((s.readV x).getLsbD k || (s.readV y).getLsbD k) ∧
        a.getLsbD k = ((s.readV x).getLsbD k && (s.readV y).getLsbD k) ∧
        e.getLsbD k = ((s.readV x).getLsbD k ^^ (s.readV y).getLsbD k)) ∧
      SetsRegister (.or x y) s x o.toNat ∧ SetsRegister (.and x y) s x a.toNat ∧
      SetsRegister (.xor x y) s x e.toNat

/-- R95: the sum modulo 256, and the carry in `VF`, also when `x` or `y` is `VF`. -/
def Obligations.AddRegisterSetsCarry : Prop :=
  ∀ (x y : Reg) (s : State), IsWordOf (0x8004 + 0x100 * x.val + 0x10 * y.val) (.addReg x y) ∧
    SetsRegisterAndFlag (.addReg x y) s x (((s.readV x).toNat + (s.readV y).toNat) % 256)
      (if (s.readV x).toNat + (s.readV y).toNat > 255 then 1 else 0)

/-- R96, R98: both subtractions, with the no-borrow flag: 1 for equal operands. The difference modulo
256 is `a - b` if `a >= b`, else `a - b + 256` (R101 (b)). -/
def Obligations.SubtractionsSetNoBorrow : Prop :=
  ∀ (x y : Reg) (s : State),
    IsWordOf (0x8005 + 0x100 * x.val + 0x10 * y.val) (.sub x y) ∧
    IsWordOf (0x8007 + 0x100 * x.val + 0x10 * y.val) (.subn x y) ∧
    SetsRegisterAndFlag (.sub x y) s x
      (if (s.readV x).toNat ≥ (s.readV y).toNat then (s.readV x).toNat - (s.readV y).toNat
        else (s.readV x).toNat + 256 - (s.readV y).toNat)
      (if (s.readV x).toNat ≥ (s.readV y).toNat then 1 else 0) ∧
    SetsRegisterAndFlag (.subn x y) s x
      (if (s.readV y).toNat ≥ (s.readV x).toNat then (s.readV y).toNat - (s.readV x).toNat
        else (s.readV y).toNat + 256 - (s.readV x).toNat)
      (if (s.readV y).toNat ≥ (s.readV x).toNat then 1 else 0)

/-- R97, R99: both shifts, of `Vx` alone whatever `y` is, with the bit shifted out in `VF`. -/
def Obligations.ShiftsSetTheBitShiftedOut : Prop :=
  ∀ (x y : Reg) (s : State),
    IsWordOf (0x8006 + 0x100 * x.val + 0x10 * y.val) (.shr x y) ∧
    IsWordOf (0x800E + 0x100 * x.val + 0x10 * y.val) (.shl x y) ∧
    SetsRegisterAndFlag (.shr x y) s x ((s.readV x).toNat / 2) ((s.readV x).toNat % 2) ∧
    SetsRegisterAndFlag (.shl x y) s x (2 * (s.readV x).toNat % 256) ((s.readV x).toNat / 128)

/-- R100: the random instruction masks the random byte of its step, whichever byte it is, and writes no
flag. That on the step of this machine the byte is the free value the state's counter selects, and that
the counter then moves on, is the model's choice (log entry 3); nothing here rests on which byte it is. -/
def Obligations.RandomMasksTheDraw : Prop :=
  ∀ (x : Reg) (kk : Byte) (s : State), IsWordOf (0xC000 + 0x100 * x.val + kk.toNat) (.rnd x kk) ∧
    (∃ t, exec (.rnd x kk) s = .next t ∧
      (∀ k, k < 8 → (t.readV x).getLsbD k = ((randomByte s.draws).getLsbD k && kk.getLsbD k)) ∧
      (∀ r, r ≠ x → t.readV r = s.readV r) ∧ t.pc = s.pc + 2 ∧ t.draws = s.draws + 1 ∧
      SameExcept [.v, .pc, .draws] s t) ∧
    ∀ rnd, ∃ t, execWith Config.machine rnd (.rnd x kk) s = .next t ∧
      (∀ k, k < 8 → (t.readV x).getLsbD k = (rnd.getLsbD k && kk.getLsbD k)) ∧
      (∀ r, r ≠ x → t.readV r = s.readV r) ∧ t.pc = s.pc + 2 ∧ SameExcept [.v, .pc] s t

/-! ## Index register and memory -/

/-- R110: `I` takes the 12-bit address, its upper bits 0. -/
def Obligations.SetIndexIsDirect : Prop :=
  ∀ (nnn : Addr12) (s : State), IsWordOf (0xA000 + nnn.toNat) (.ldI nnn) ∧
    ∃ t, exec (.ldI nnn) s = .next t ∧ t.i.toNat = nnn.toNat ∧ t.pc = s.pc + 2 ∧ SameExcept [.i, .pc] s t

/-- R111: `I` wraps at 16 bits, and `VF` is not written. -/
def Obligations.AddIndexWrapsWithoutFlag : Prop :=
  ∀ (x : Reg) (s : State), IsWordOf (0xF01E + 0x100 * x.val) (.addI x) ∧
    ∃ t, exec (.addI x) s = .next t ∧ t.i.toNat = (s.i.toNat + (s.readV x).toNat) % 65536 ∧
      t.pc = s.pc + 2 ∧ SameExcept [.i, .pc] s t

/-- R112: `I` is `FONT_BASE + 5 * d` for the low digit of the register, whatever the base, and the whole
glyph lies below `0x200`. -/
def Obligations.FontAddressIsBasePlusFiveDigits : Prop :=
  ∀ (x : Reg) (s : State), IsWordOf (0xF029 + 0x100 * x.val) (.ldF x) ∧
    ∃ t, exec (.ldF x) s = .next t ∧
      t.i.toNat = Config.machine.fontBase.val + 5 * ((s.readV x).toNat % 16) ∧ t.i.toNat ≤ 0x1FB ∧
      t.pc = s.pc + 2 ∧ SameExcept [.i, .pc] s t

/-- R113: three decimal digits at `I`, `I + 1`, `I + 2`, every other byte as before; fatal, with nothing
written, if `I + 2 > 0xFFF`. -/
def Obligations.BcdStoresThreeDigits : Prop :=
  ∀ (x : Reg) (s : State), IsWordOf (0xF033 + 0x100 * x.val) (.ldB x) ∧
    (s.i.toNat + 2 > 0xFFF → exec (.ldB x) s = .fault (.addressOutOfRange (s.i.toNat + 2))) ∧
    (s.i.toNat + 2 ≤ 0xFFF → ∃ t, exec (.ldB x) s = .next t ∧
      (t.readMem (s.dataAddr 0)).toNat = (s.readV x).toNat / 100 ∧
      (t.readMem (s.dataAddr 1)).toNat = (s.readV x).toNat / 10 % 10 ∧
      (t.readMem (s.dataAddr 2)).toNat = (s.readV x).toNat % 10 ∧
      (∀ a, a ≠ s.dataAddr 0 → a ≠ s.dataAddr 1 → a ≠ s.dataAddr 2 → t.readMem a = s.readMem a) ∧
      t.pc = s.pc + 2 ∧ SameExcept [.mem, .pc] s t)

/-- R114: `V0 .. Vx` at `I .. I + x`, inclusive, every other byte and `I` as before; fatal, with nothing
written, if `I + x > 0xFFF`. -/
def Obligations.BlockStoreIsInclusive : Prop :=
  ∀ (x : Reg) (s : State), IsWordOf (0xF055 + 0x100 * x.val) (.stRegs x) ∧
    (s.i.toNat + x.val > 0xFFF → exec (.stRegs x) s = .fault (.addressOutOfRange (s.i.toNat + x.val))) ∧
    (s.i.toNat + x.val ≤ 0xFFF → ∃ t, exec (.stRegs x) s = .next t ∧
      (∀ k : Reg, k ≤ x → t.readMem (s.dataAddr k.val) = s.readV k) ∧
      (∀ a, (∀ k : Reg, k ≤ x → a ≠ s.dataAddr k.val) → t.readMem a = s.readMem a) ∧
      t.pc = s.pc + 2 ∧ SameExcept [.mem, .pc] s t)

/-- R115: `V0 .. Vx` from `I .. I + x`, every other register, `I` and memory as before; fatal, with no
register written, if `I + x > 0xFFF`. -/
def Obligations.BlockLoadIsInclusive : Prop :=
  ∀ (x : Reg) (s : State), IsWordOf (0xF065 + 0x100 * x.val) (.ldRegs x) ∧
    (s.i.toNat + x.val > 0xFFF → exec (.ldRegs x) s = .fault (.addressOutOfRange (s.i.toNat + x.val))) ∧
    (s.i.toNat + x.val ≤ 0xFFF → ∃ t, exec (.ldRegs x) s = .next t ∧
      (∀ k : Reg, k ≤ x → t.readV k = s.readMem (s.dataAddr k.val)) ∧
      (∀ k : Reg, x < k → t.readV k = s.readV k) ∧
      t.pc = s.pc + 2 ∧ SameExcept [.v, .pc] s t)

/-- R45 (an inference of the spec): bytes that a block store puts at the next instruction's address are
what the next fetch reads, the first as the high byte. -/
def Obligations.StoredBytesAreFetchedNext : Prop :=
  ∀ (x : Reg) (s t : State), exec (.stRegs x) s = .next t → 1 ≤ x.val → s.i = s.pc + 2 →
    ∃ op : Word, fetch Config.machine t = .ok op ∧ op.toNat / 0x100 = (s.readV 0).toNat ∧
      op.toNat % 0x100 = (s.readV 1).toNat

/-- R33: a write replaces the byte at its address and changes nothing else, in any memory and with any
font; and it keeps the canonical form. -/
def Obligations.WriteChangesOneByte : Prop :=
  ∀ (c : Config) (m : Memory) (a : Nat) (b : Byte),
    Memory.read c (Memory.write c m a b) a = b ∧
    (∀ a', a' ≠ a → Memory.read c (Memory.write c m a b) a' = Memory.read c m a') ∧
    (Memory.wf c m → a ≤ 0xFFF → Memory.wf c (Memory.write c m a b))

/-! ## Display -/

/-- R120: every pixel unlit; `VF` and everything else but `pc` unchanged. -/
def Obligations.ClearUnlightsEveryPixel : Prop :=
  IsWordOf 0x00E0 .cls ∧ ∀ s : State, ∃ t, exec .cls s = .next t ∧ (∀ x y, t.fb.pixel x y = false) ∧
    t.pc = s.pc + 2 ∧ SameExcept [.fb, .pc] s t

/-- R121, R122, R123: for `n` rows from `I`, bit `7 - c` of row `r` is exclusive-ored into the pixel at
`((V[x] + c) mod 64, (V[y] + r) mod 32)`, every other pixel is as before, and `VF` is 1 iff one of these
bits meets a lit pixel, else 0. With `n = 0` nothing is read or drawn and `VF` is 0. Fatal, with nothing
changed, if the last row lies past `0xFFF`. The bit order, the case `n = 0` and the fatal case are the
spec's own choices (its D12, D11, D6; log entries 18, 17, 15). -/
def Obligations.DrawBlendsEveryBitAtItsWrappedPixel : Prop :=
  ∀ (x y : Reg) (n : Height) (s : State),
    IsWordOf (0xD000 + 0x100 * x.val + 0x10 * y.val + n.val) (.drw x y n) ∧
    (n.val ≥ 1 → s.i.toNat + n.val - 1 > 0xFFF →
      exec (.drw x y n) s = .fault (.addressOutOfRange (s.i.toNat + n.val - 1))) ∧
    (n.val = 0 ∨ s.i.toNat + n.val - 1 ≤ 0xFFF → ∃ t, exec (.drw x y n) s = .next t ∧
      (∀ r c : Nat, ∀ px : Col, ∀ py : Row, r < n.val → c < 8 →
        px.val = ((s.readV x).toNat + c) % 64 → py.val = ((s.readV y).toNat + r) % 32 →
        t.fb.pixel px py = (s.fb.pixel px py ^^ (s.readMem (s.dataAddr r)).getLsbD (7 - c))) ∧
      (∀ px : Col, ∀ py : Row, (∀ r c : Nat, r < n.val → c < 8 →
        ¬ (px.val = ((s.readV x).toNat + c) % 64 ∧ py.val = ((s.readV y).toNat + r) % 32)) →
        t.fb.pixel px py = s.fb.pixel px py) ∧
      (t.readV regF = 1 ∨ t.readV regF = 0) ∧
      (t.readV regF = 1 ↔ ∃ r c : Nat, ∃ px : Col, ∃ py : Row, r < n.val ∧ c < 8 ∧
        px.val = ((s.readV x).toNat + c) % 64 ∧ py.val = ((s.readV y).toNat + r) % 32 ∧
        (s.readMem (s.dataAddr r)).getLsbD (7 - c) = true ∧ s.fb.pixel px py = true) ∧
      (∀ r, r ≠ regF → t.readV r = s.readV r) ∧ t.pc = s.pc + 2 ∧ SameExcept [.v, .fb, .pc] s t)

/-- The source's collision property (95_test_vectors.md S6; R121 corner case (g)): the same sprite drawn
twice at the same place restores every pixel; on a blank canvas the first draw leaves `VF = 0`, and the
second `VF = 1` if the sprite has any bit set. -/
def Obligations.DrawingTwiceRestoresTheScreen : Prop :=
  ∀ (x y : Reg) (n : Height) (s t : State), x ≠ regF → y ≠ regF → exec (.drw x y n) s = .next t →
    ∃ u, exec (.drw x y n) t = .next u ∧ (∀ px py, u.fb.pixel px py = s.fb.pixel px py) ∧
      ((∀ px py, s.fb.pixel px py = false) → t.readV regF = 0 ∧
        ((∃ r c : Nat, r < n.val ∧ c < 8 ∧ (s.readMem (s.dataAddr r)).getLsbD c = true) → u.readV regF = 1))

/-! ## Keypad and timers -/

/-- R130, R131, R154: both key skips test the flag of the key whose number the register holds; above 15
they are fatal, which is the spec's own choice (its D10; log entry 16); only `pc` changes. -/
def Obligations.KeySkipsTestOneFlag : Prop :=
  ∀ (x : Reg) (s : State),
    IsWordOf (0xE09E + 0x100 * x.val) (.skp x) ∧ IsWordOf (0xE0A1 + 0x100 * x.val) (.sknp x) ∧
    ((s.readV x).toNat > 15 →
      exec (.skp x) s = .fault (.keyIndexOutOfRange (s.readV x)) ∧
      exec (.sknp x) s = .fault (.keyIndexOutOfRange (s.readV x))) ∧
    (∀ k : Key, (s.readV x).toNat = k.val →
      OnlySetsPc (.skp x) s (s.pc + if s.keyDown k = true then 4 else 2) ∧
      OnlySetsPc (.sknp x) s (s.pc + if s.keyDown k = true then 2 else 4))

/-- R132: the lowest key that is down is stored and the machine goes on; with no key down the step is
`Ok` and changes nothing at all. -/
def Obligations.WaitForKeyTakesTheLowestKey : Prop :=
  ∀ (x : Reg) (s : State), IsWordOf (0xF00A + 0x100 * x.val) (.ldK x) ∧
    (∀ k : Key, s.keyDown k = true → (∀ j, j < k → s.keyDown j = false) →
      SetsRegister (.ldK x) s x k.val) ∧
    ((∀ k : Key, s.keyDown k = false) → exec (.ldK x) s = .next s)

/-- R132, R173: a machine held at a wait-for-key completes at the first step after a `KEYS` event with a
flag set, with the lowest such key; every other register and everything but `pc` and the key flags is as
before, and the flags are those of the event. -/
def Obligations.KeysEventLiftsTheWait : Prop :=
  ∀ (c : Config) (x : Reg) (s : State) (k : Vector Bool 16) (key : Key) (rnd rnd' : Byte),
    Fetches c s (.ldK x) → Waiting c s → k[key] = true → (∀ j : Key, j < key → k[j] = false) →
    runEvents c [.step rnd] s = s ∧
    (let t := runEvents c [.step rnd, .keys k, .step rnd'] s
     (t.readV x).toNat = key.val ∧ (∀ r, r ≠ x → t.readV r = s.readV r) ∧ t.pc = s.pc + 2 ∧
     (∀ i : Key, t.keyDown i = k[i]) ∧ t.mem = s.mem ∧ SameExcept [.v, .pc, .keys] s t)

/-- R133, R134: each timer takes the register's value; nothing else changes but `pc`. -/
def Obligations.TimersTakeTheRegister : Prop :=
  ∀ (x : Reg) (s : State),
    IsWordOf (0xF015 + 0x100 * x.val) (.ldDt x) ∧ IsWordOf (0xF018 + 0x100 * x.val) (.ldSt x) ∧
    (∃ t, exec (.ldDt x) s = .next t ∧ t.dt = s.readV x ∧ t.pc = s.pc + 2 ∧ SameExcept [.dt, .pc] s t) ∧
    (∃ t, exec (.ldSt x) s = .next t ∧ t.st = s.readV x ∧ t.pc = s.pc + 2 ∧ SameExcept [.st, .pc] s t)

/-! ## The optional extension -/

/-- R6, R57, R140, R141: with the switch on, `8xy0` and `Fx07` decode to the register copy and the read of
the delay timer, which have these effects; with it off, as on this hardware, both words are
unrecognized. The clauses with the switch on are about a machine the spec's source does not describe (D3;
log entry 4). -/
def Obligations.ExtensionIsOnlyUnderItsSwitch : Prop :=
  ∀ (x y : Reg) (s : State),
    (∀ op : Word, op.toNat = 0x8000 + 0x100 * x.val + 0x10 * y.val →
      decodeWord true op = some (.ldReg x y) ∧ decodeWord Config.machine.ext8xy0Fx07 op = none) ∧
    (∀ op : Word, op.toNat = 0xF007 + 0x100 * x.val →
      decodeWord true op = some (.ldVxDt x) ∧ decodeWord Config.machine.ext8xy0Fx07 op = none) ∧
    SetsRegister (.ldReg x y) s x (s.readV y).toNat ∧ SetsRegister (.ldVxDt x) s x s.dt.toNat

/-! ## The end of a run -/

/-- R192: a jump to its own address is settled and ends a run; a wait-for-key with no key down is
settled too but is a wait, not an end; a run has gone wrong at a fatal or unrecognized step and is not
settled there. -/
def Obligations.JumpToSelfEndsARun : Prop :=
  ∀ (c : Config) (s : State),
    (∀ nnn : Addr12, Fetches c s (.jp nnn) → nnn.toNat = s.pc.toNat → Ended c s) ∧
    (Waiting c s → Settled c s ∧ ¬ Ended c s) ∧
    (GoneWrong c s → ¬ Settled c s)
end

