-- ==== Sys2Proof/Laws/State.lean ====
section
/-! SUPPORT. One lemma for each field of the state under each of the named updates, so that no proof
unfolds a record update; and the reads of registers after the writes of registers. -/

namespace Sys2Proof.Machine

/-! ### `writeV` -/

@[simp] theorem State.writeV_i (s : State) (x : Reg) (b : Byte) : (s.writeV x b).i = s.i := rfl
@[simp] theorem State.writeV_pc (s : State) (x : Reg) (b : Byte) : (s.writeV x b).pc = s.pc := rfl
@[simp] theorem State.writeV_stack (s : State) (x : Reg) (b : Byte) : (s.writeV x b).stack = s.stack := rfl
@[simp] theorem State.writeV_sp (s : State) (x : Reg) (b : Byte) : (s.writeV x b).sp = s.sp := rfl
@[simp] theorem State.writeV_fb (s : State) (x : Reg) (b : Byte) : (s.writeV x b).fb = s.fb := rfl
@[simp] theorem State.writeV_dt (s : State) (x : Reg) (b : Byte) : (s.writeV x b).dt = s.dt := rfl
@[simp] theorem State.writeV_st (s : State) (x : Reg) (b : Byte) : (s.writeV x b).st = s.st := rfl
@[simp] theorem State.writeV_keys (s : State) (x : Reg) (b : Byte) : (s.writeV x b).keys = s.keys := rfl
@[simp] theorem State.writeV_mem (s : State) (x : Reg) (b : Byte) : (s.writeV x b).mem = s.mem := rfl
@[simp] theorem State.writeV_draws (s : State) (x : Reg) (b : Byte) : (s.writeV x b).draws = s.draws := rfl

/-! ### `writeVFlag` -/

@[simp] theorem State.writeVFlag_i (s : State) (x : Reg) (b g : Byte) : (s.writeVFlag x b g).i = s.i := rfl
@[simp] theorem State.writeVFlag_pc (s : State) (x : Reg) (b g : Byte) : (s.writeVFlag x b g).pc = s.pc := rfl
@[simp] theorem State.writeVFlag_stack (s : State) (x : Reg) (b g : Byte) : (s.writeVFlag x b g).stack = s.stack := rfl
@[simp] theorem State.writeVFlag_sp (s : State) (x : Reg) (b g : Byte) : (s.writeVFlag x b g).sp = s.sp := rfl
@[simp] theorem State.writeVFlag_fb (s : State) (x : Reg) (b g : Byte) : (s.writeVFlag x b g).fb = s.fb := rfl
@[simp] theorem State.writeVFlag_dt (s : State) (x : Reg) (b g : Byte) : (s.writeVFlag x b g).dt = s.dt := rfl
@[simp] theorem State.writeVFlag_st (s : State) (x : Reg) (b g : Byte) : (s.writeVFlag x b g).st = s.st := rfl
@[simp] theorem State.writeVFlag_keys (s : State) (x : Reg) (b g : Byte) : (s.writeVFlag x b g).keys = s.keys := rfl
@[simp] theorem State.writeVFlag_mem (s : State) (x : Reg) (b g : Byte) : (s.writeVFlag x b g).mem = s.mem := rfl
@[simp] theorem State.writeVFlag_draws (s : State) (x : Reg) (b g : Byte) : (s.writeVFlag x b g).draws = s.draws := rfl

/-! ### `writeFirstRegs` -/

@[simp] theorem State.writeFirstRegs_i (s : State) (bs : List Byte) : (s.writeFirstRegs bs).i = s.i := rfl
@[simp] theorem State.writeFirstRegs_pc (s : State) (bs : List Byte) : (s.writeFirstRegs bs).pc = s.pc := rfl
@[simp] theorem State.writeFirstRegs_stack (s : State) (bs : List Byte) : (s.writeFirstRegs bs).stack = s.stack := rfl
@[simp] theorem State.writeFirstRegs_sp (s : State) (bs : List Byte) : (s.writeFirstRegs bs).sp = s.sp := rfl
@[simp] theorem State.writeFirstRegs_fb (s : State) (bs : List Byte) : (s.writeFirstRegs bs).fb = s.fb := rfl
@[simp] theorem State.writeFirstRegs_dt (s : State) (bs : List Byte) : (s.writeFirstRegs bs).dt = s.dt := rfl
@[simp] theorem State.writeFirstRegs_st (s : State) (bs : List Byte) : (s.writeFirstRegs bs).st = s.st := rfl
@[simp] theorem State.writeFirstRegs_keys (s : State) (bs : List Byte) : (s.writeFirstRegs bs).keys = s.keys := rfl
@[simp] theorem State.writeFirstRegs_mem (s : State) (bs : List Byte) : (s.writeFirstRegs bs).mem = s.mem := rfl
@[simp] theorem State.writeFirstRegs_draws (s : State) (bs : List Byte) : (s.writeFirstRegs bs).draws = s.draws := rfl

/-! ### `writeI` -/

@[simp] theorem State.writeI_v (s : State) (a : Word) : (s.writeI a).v = s.v := rfl
@[simp] theorem State.writeI_pc (s : State) (a : Word) : (s.writeI a).pc = s.pc := rfl
@[simp] theorem State.writeI_stack (s : State) (a : Word) : (s.writeI a).stack = s.stack := rfl
@[simp] theorem State.writeI_sp (s : State) (a : Word) : (s.writeI a).sp = s.sp := rfl
@[simp] theorem State.writeI_fb (s : State) (a : Word) : (s.writeI a).fb = s.fb := rfl
@[simp] theorem State.writeI_dt (s : State) (a : Word) : (s.writeI a).dt = s.dt := rfl
@[simp] theorem State.writeI_st (s : State) (a : Word) : (s.writeI a).st = s.st := rfl
@[simp] theorem State.writeI_keys (s : State) (a : Word) : (s.writeI a).keys = s.keys := rfl
@[simp] theorem State.writeI_mem (s : State) (a : Word) : (s.writeI a).mem = s.mem := rfl
@[simp] theorem State.writeI_draws (s : State) (a : Word) : (s.writeI a).draws = s.draws := rfl

/-! ### `writeDT` -/

@[simp] theorem State.writeDT_v (s : State) (b : Byte) : (s.writeDT b).v = s.v := rfl
@[simp] theorem State.writeDT_i (s : State) (b : Byte) : (s.writeDT b).i = s.i := rfl
@[simp] theorem State.writeDT_pc (s : State) (b : Byte) : (s.writeDT b).pc = s.pc := rfl
@[simp] theorem State.writeDT_stack (s : State) (b : Byte) : (s.writeDT b).stack = s.stack := rfl
@[simp] theorem State.writeDT_sp (s : State) (b : Byte) : (s.writeDT b).sp = s.sp := rfl
@[simp] theorem State.writeDT_fb (s : State) (b : Byte) : (s.writeDT b).fb = s.fb := rfl
@[simp] theorem State.writeDT_st (s : State) (b : Byte) : (s.writeDT b).st = s.st := rfl
@[simp] theorem State.writeDT_keys (s : State) (b : Byte) : (s.writeDT b).keys = s.keys := rfl
@[simp] theorem State.writeDT_mem (s : State) (b : Byte) : (s.writeDT b).mem = s.mem := rfl
@[simp] theorem State.writeDT_draws (s : State) (b : Byte) : (s.writeDT b).draws = s.draws := rfl

/-! ### `writeST` -/

@[simp] theorem State.writeST_v (s : State) (b : Byte) : (s.writeST b).v = s.v := rfl
@[simp] theorem State.writeST_i (s : State) (b : Byte) : (s.writeST b).i = s.i := rfl
@[simp] theorem State.writeST_pc (s : State) (b : Byte) : (s.writeST b).pc = s.pc := rfl
@[simp] theorem State.writeST_stack (s : State) (b : Byte) : (s.writeST b).stack = s.stack := rfl
@[simp] theorem State.writeST_sp (s : State) (b : Byte) : (s.writeST b).sp = s.sp := rfl
@[simp] theorem State.writeST_fb (s : State) (b : Byte) : (s.writeST b).fb = s.fb := rfl
@[simp] theorem State.writeST_dt (s : State) (b : Byte) : (s.writeST b).dt = s.dt := rfl
@[simp] theorem State.writeST_keys (s : State) (b : Byte) : (s.writeST b).keys = s.keys := rfl
@[simp] theorem State.writeST_mem (s : State) (b : Byte) : (s.writeST b).mem = s.mem := rfl
@[simp] theorem State.writeST_draws (s : State) (b : Byte) : (s.writeST b).draws = s.draws := rfl

/-! ### `masked` -/

@[simp] theorem State.masked_i (s : State) (b : Byte) (x : Reg) (k : Byte) : (s.masked b x k).i = s.i := rfl
@[simp] theorem State.masked_stack (s : State) (b : Byte) (x : Reg) (k : Byte) : (s.masked b x k).stack = s.stack := rfl
@[simp] theorem State.masked_sp (s : State) (b : Byte) (x : Reg) (k : Byte) : (s.masked b x k).sp = s.sp := rfl
@[simp] theorem State.masked_fb (s : State) (b : Byte) (x : Reg) (k : Byte) : (s.masked b x k).fb = s.fb := rfl
@[simp] theorem State.masked_dt (s : State) (b : Byte) (x : Reg) (k : Byte) : (s.masked b x k).dt = s.dt := rfl
@[simp] theorem State.masked_st (s : State) (b : Byte) (x : Reg) (k : Byte) : (s.masked b x k).st = s.st := rfl
@[simp] theorem State.masked_keys (s : State) (b : Byte) (x : Reg) (k : Byte) : (s.masked b x k).keys = s.keys := rfl
@[simp] theorem State.masked_mem (s : State) (b : Byte) (x : Reg) (k : Byte) : (s.masked b x k).mem = s.mem := rfl
@[simp] theorem State.masked_draws (s : State) (b : Byte) (x : Reg) (k : Byte) : (s.masked b x k).draws = s.draws := rfl
@[simp] theorem State.masked_pc (s : State) (b : Byte) (x : Reg) (k : Byte) : (s.masked b x k).pc = s.pc + 2 := rfl

/-! ### `nextDraw` -/

@[simp] theorem State.nextDraw_toSpecState (s : State) : s.nextDraw.toSpecState = s.toSpecState := rfl

@[simp] theorem State.nextDraw_v (s : State) : (s.nextDraw).v = s.v := rfl
@[simp] theorem State.nextDraw_i (s : State) : (s.nextDraw).i = s.i := rfl
@[simp] theorem State.nextDraw_pc (s : State) : (s.nextDraw).pc = s.pc := rfl
@[simp] theorem State.nextDraw_stack (s : State) : (s.nextDraw).stack = s.stack := rfl
@[simp] theorem State.nextDraw_sp (s : State) : (s.nextDraw).sp = s.sp := rfl
@[simp] theorem State.nextDraw_fb (s : State) : (s.nextDraw).fb = s.fb := rfl
@[simp] theorem State.nextDraw_dt (s : State) : (s.nextDraw).dt = s.dt := rfl
@[simp] theorem State.nextDraw_st (s : State) : (s.nextDraw).st = s.st := rfl
@[simp] theorem State.nextDraw_keys (s : State) : (s.nextDraw).keys = s.keys := rfl
@[simp] theorem State.nextDraw_mem (s : State) : (s.nextDraw).mem = s.mem := rfl

/-! ### `jump` -/

@[simp] theorem State.jump_v (s : State) (a : Word) : (s.jump a).v = s.v := rfl
@[simp] theorem State.jump_i (s : State) (a : Word) : (s.jump a).i = s.i := rfl
@[simp] theorem State.jump_stack (s : State) (a : Word) : (s.jump a).stack = s.stack := rfl
@[simp] theorem State.jump_sp (s : State) (a : Word) : (s.jump a).sp = s.sp := rfl
@[simp] theorem State.jump_fb (s : State) (a : Word) : (s.jump a).fb = s.fb := rfl
@[simp] theorem State.jump_dt (s : State) (a : Word) : (s.jump a).dt = s.dt := rfl
@[simp] theorem State.jump_st (s : State) (a : Word) : (s.jump a).st = s.st := rfl
@[simp] theorem State.jump_keys (s : State) (a : Word) : (s.jump a).keys = s.keys := rfl
@[simp] theorem State.jump_mem (s : State) (a : Word) : (s.jump a).mem = s.mem := rfl
@[simp] theorem State.jump_draws (s : State) (a : Word) : (s.jump a).draws = s.draws := rfl

/-! ### `advance` -/

@[simp] theorem State.advance_v (s : State) : (s.advance).v = s.v := rfl
@[simp] theorem State.advance_i (s : State) : (s.advance).i = s.i := rfl
@[simp] theorem State.advance_stack (s : State) : (s.advance).stack = s.stack := rfl
@[simp] theorem State.advance_sp (s : State) : (s.advance).sp = s.sp := rfl
@[simp] theorem State.advance_fb (s : State) : (s.advance).fb = s.fb := rfl
@[simp] theorem State.advance_dt (s : State) : (s.advance).dt = s.dt := rfl
@[simp] theorem State.advance_st (s : State) : (s.advance).st = s.st := rfl
@[simp] theorem State.advance_keys (s : State) : (s.advance).keys = s.keys := rfl
@[simp] theorem State.advance_mem (s : State) : (s.advance).mem = s.mem := rfl
@[simp] theorem State.advance_draws (s : State) : (s.advance).draws = s.draws := rfl

/-! ### `tick` -/

@[simp] theorem State.tick_v (s : State) : (s.tick).v = s.v := rfl
@[simp] theorem State.tick_i (s : State) : (s.tick).i = s.i := rfl
@[simp] theorem State.tick_pc (s : State) : (s.tick).pc = s.pc := rfl
@[simp] theorem State.tick_stack (s : State) : (s.tick).stack = s.stack := rfl
@[simp] theorem State.tick_sp (s : State) : (s.tick).sp = s.sp := rfl
@[simp] theorem State.tick_fb (s : State) : (s.tick).fb = s.fb := rfl
@[simp] theorem State.tick_keys (s : State) : (s.tick).keys = s.keys := rfl
@[simp] theorem State.tick_mem (s : State) : (s.tick).mem = s.mem := rfl
@[simp] theorem State.tick_draws (s : State) : (s.tick).draws = s.draws := rfl

/-! ### `setKeys` -/

@[simp] theorem State.setKeys_v (s : State) (k : Vector Bool 16) : (s.setKeys k).v = s.v := rfl
@[simp] theorem State.setKeys_i (s : State) (k : Vector Bool 16) : (s.setKeys k).i = s.i := rfl
@[simp] theorem State.setKeys_pc (s : State) (k : Vector Bool 16) : (s.setKeys k).pc = s.pc := rfl
@[simp] theorem State.setKeys_stack (s : State) (k : Vector Bool 16) : (s.setKeys k).stack = s.stack := rfl
@[simp] theorem State.setKeys_sp (s : State) (k : Vector Bool 16) : (s.setKeys k).sp = s.sp := rfl
@[simp] theorem State.setKeys_fb (s : State) (k : Vector Bool 16) : (s.setKeys k).fb = s.fb := rfl
@[simp] theorem State.setKeys_dt (s : State) (k : Vector Bool 16) : (s.setKeys k).dt = s.dt := rfl
@[simp] theorem State.setKeys_st (s : State) (k : Vector Bool 16) : (s.setKeys k).st = s.st := rfl
@[simp] theorem State.setKeys_mem (s : State) (k : Vector Bool 16) : (s.setKeys k).mem = s.mem := rfl
@[simp] theorem State.setKeys_draws (s : State) (k : Vector Bool 16) : (s.setKeys k).draws = s.draws := rfl

@[simp] theorem State.skipIf_v (s : State) (b : Bool) : (s.skipIf b).v = s.v := by cases b <;> rfl
@[simp] theorem State.skipIf_i (s : State) (b : Bool) : (s.skipIf b).i = s.i := by cases b <;> rfl
@[simp] theorem State.skipIf_stack (s : State) (b : Bool) : (s.skipIf b).stack = s.stack := by cases b <;> rfl
@[simp] theorem State.skipIf_sp (s : State) (b : Bool) : (s.skipIf b).sp = s.sp := by cases b <;> rfl
@[simp] theorem State.skipIf_fb (s : State) (b : Bool) : (s.skipIf b).fb = s.fb := by cases b <;> rfl
@[simp] theorem State.skipIf_dt (s : State) (b : Bool) : (s.skipIf b).dt = s.dt := by cases b <;> rfl
@[simp] theorem State.skipIf_st (s : State) (b : Bool) : (s.skipIf b).st = s.st := by cases b <;> rfl
@[simp] theorem State.skipIf_keys (s : State) (b : Bool) : (s.skipIf b).keys = s.keys := by cases b <;> rfl
@[simp] theorem State.skipIf_mem (s : State) (b : Bool) : (s.skipIf b).mem = s.mem := by cases b <;> rfl
@[simp] theorem State.skipIf_draws (s : State) (b : Bool) : (s.skipIf b).draws = s.draws := by cases b <;> rfl

/-! ### The field each update writes -/

@[simp] theorem State.writeI_i (s : State) (a : Word) : (s.writeI a).i = a := rfl
@[simp] theorem State.writeDT_dt (s : State) (b : Byte) : (s.writeDT b).dt = b := rfl
@[simp] theorem State.writeST_st (s : State) (b : Byte) : (s.writeST b).st = b := rfl
@[simp] theorem State.nextDraw_draws (s : State) : s.nextDraw.draws = s.draws + 1 := rfl
@[simp] theorem State.jump_pc (s : State) (a : Word) : (s.jump a).pc = a := rfl
@[simp] theorem State.advance_pc (s : State) : s.advance.pc = s.pc + 2 := rfl
@[simp] theorem State.tick_dt (s : State) : s.tick.dt = tickTimer s.dt := rfl
@[simp] theorem State.tick_st (s : State) : s.tick.st = tickTimer s.st := rfl
@[simp] theorem State.setKeys_keys (s : State) (k : Vector Bool 16) : (s.setKeys k).keys = k := rfl

/-- A skip adds one more instruction width when its condition holds (R73). -/
@[simp] theorem State.skipIf_pc (s : State) (b : Bool) :
    (s.skipIf b).pc = s.pc + (if b then 4 else 2) := by
  cases b
  · rfl
  · show s.pc + 2 + 2 = s.pc + 4
    rw [BitVec.add_assoc]
    rfl

/-! ### Reads that depend on one field -/

theorem State.readV_congr {s t : State} (h : t.v = s.v) (r : Reg) : t.readV r = s.readV r := by
  unfold State.readV
  rw [h]

theorem State.readMem_congr {s t : State} (h : t.mem = s.mem) (a : Nat) : t.readMem a = s.readMem a := by
  unfold State.readMem
  rw [h]

theorem State.keyDown_congr {s t : State} (h : t.keys = s.keys) (k : Key) : t.keyDown k = s.keyDown k := by
  unfold State.keyDown
  rw [h]

@[simp] theorem State.readV_advance (s : State) (r : Reg) : s.advance.readV r = s.readV r := rfl
@[simp] theorem State.readV_jump (s : State) (a : Word) (r : Reg) : (s.jump a).readV r = s.readV r := rfl
@[simp] theorem State.readV_nextDraw (s : State) (r : Reg) : s.nextDraw.readV r = s.readV r := rfl
@[simp] theorem State.readV_writeI (s : State) (a : Word) (r : Reg) : (s.writeI a).readV r = s.readV r := rfl
@[simp] theorem State.readV_skipIf (s : State) (b : Bool) (r : Reg) : (s.skipIf b).readV r = s.readV r :=
  State.readV_congr (State.skipIf_v s b) r

/-! ### Register reads after register writes -/

/-- `V[x] <- b` seen through any register. -/
theorem State.readV_writeV (s : State) (x r : Reg) (b : Byte) :
    (s.writeV x b).readV r = if r = x then b else s.readV r := by
  simp only [State.readV, State.writeV, Fin.getElem_fin, Vector.getElem_set]
  by_cases h : r = x
  · subst h; simp
  · rw [if_neg, if_neg h]
    intro h'
    exact h (Fin.ext h'.symm)

@[simp] theorem State.readV_writeV_same (s : State) (x : Reg) (b : Byte) : (s.writeV x b).readV x = b := by
  rw [State.readV_writeV, if_pos rfl]

theorem State.readV_writeV_other (s : State) {x r : Reg} (b : Byte) (h : r ≠ x) :
    (s.writeV x b).readV r = s.readV r := by
  rw [State.readV_writeV, if_neg h]

/-- The random instruction writes its register and no other (R100). -/
theorem State.readV_masked (s : State) (b : Byte) (x r : Reg) (k : Byte) :
    (s.masked b x k).readV r = if r = x then b &&& k else s.readV r := State.readV_writeV s x r (b &&& k)

/-- The flag is written last, so it is what `VF` holds, also when `x` is `VF` (R75). -/
@[simp] theorem State.readV_writeVFlag_flag (s : State) (x : Reg) (b g : Byte) :
    (s.writeVFlag x b g).readV regF = g := State.readV_writeV_same _ _ _

theorem State.readV_writeVFlag_result (s : State) {x : Reg} (b g : Byte) (h : x ≠ regF) :
    (s.writeVFlag x b g).readV x = b := by
  rw [State.writeVFlag, State.readV_writeV_other _ _ h, State.readV_writeV_same]

theorem State.readV_writeVFlag_other (s : State) {x r : Reg} (b g : Byte) (hx : r ≠ x) (hf : r ≠ regF) :
    (s.writeVFlag x b g).readV r = s.readV r := by
  rw [State.writeVFlag, State.readV_writeV_other _ _ hf, State.readV_writeV_other _ _ hx]

/-- A register the block load has a byte for holds it; every other is unchanged (R115). -/
theorem State.readV_writeFirstRegs (s : State) (bs : List Byte) (r : Reg) :
    (s.writeFirstRegs bs).readV r = (bs[r.val]?).getD (s.readV r) := by
  simp [State.readV, State.writeFirstRegs]

/-! ### Frames -/

/-- States that agree on every field outside `changed` differ in nothing else. -/
theorem SameExcept.of_fields {changed : List Part} {s t : State}
    (v : Part.v ∉ changed → t.v = s.v) (i : Part.i ∉ changed → t.i = s.i)
    (pc : Part.pc ∉ changed → t.pc = s.pc) (stack : Part.stack ∉ changed → t.stack = s.stack)
    (sp : Part.sp ∉ changed → t.sp = s.sp) (fb : Part.fb ∉ changed → t.fb = s.fb)
    (dt : Part.dt ∉ changed → t.dt = s.dt) (st : Part.st ∉ changed → t.st = s.st)
    (keys : Part.keys ∉ changed → t.keys = s.keys) (mem : Part.mem ∉ changed → t.mem = s.mem)
    (draws : Part.draws ∉ changed → t.draws = s.draws) : SameExcept changed s t where
  v h r := State.readV_congr (v h) r
  i := i
  pc := pc
  stack h k := by rw [stack h]
  sp := sp
  fb h x y := by rw [fb h]
  dt := dt
  st := st
  keys h k := State.keyDown_congr (keys h) k
  mem h c a := by rw [mem h]
  draws := draws

/-- A frame that keeps memory keeps every byte as this machine reads it. -/
theorem SameExcept.readMem {changed : List Part} {s t : State} (h : SameExcept changed s t)
    (hm : Part.mem ∉ changed) (a : Nat) : t.readMem a = s.readMem a := h.mem hm _ a

end Sys2Proof.Machine
end

