-- ==== Sys2Proof/Laws/Memory.lean ====
section
/-! SUPPORT. Memory: a read after a write, that every write keeps the canonical form, and that in
canonical form equal contents are equal lists (spec/20_memory.md R33, R38, R41). -/

namespace Sys2Proof.Machine

variable (c : Config)

/-! ### Listed bytes -/

@[simp] theorem Memory.lookup_nil (a : Nat) : Memory.lookup [] a = none := rfl

theorem Memory.lookup_cons (b : Nat) (w : Byte) (m : Memory) (a : Nat) :
    Memory.lookup ((b, w) :: m) a = if a = b then some w else Memory.lookup m a := rfl

theorem Memory.lookup_insert (m : Memory) (a b : Nat) (x : Byte) :
    Memory.lookup (Memory.insert m a x) b = if b = a then some x else Memory.lookup m b := by
  induction m with
  | nil => simp [Memory.insert, Memory.lookup]
  | cons p rest ih =>
    obtain ⟨k, w⟩ := p
    simp only [Memory.insert]
    split
    · rfl
    · split
      · rename_i h
        subst h
        simp only [Memory.lookup_cons]
        split <;> rfl
      · rename_i h
        simp only [Memory.lookup_cons, ih]
        by_cases hb : b = k
        · subst hb
          rw [if_pos rfl, if_neg (Ne.symm h), if_pos rfl]
        · rw [if_neg hb, if_neg hb]

theorem Memory.lookup_erase (m : Memory) (a b : Nat) :
    Memory.lookup (Memory.erase m a) b = if b = a then none else Memory.lookup m b := by
  unfold Memory.erase
  induction m with
  | nil => simp
  | cons p rest ih =>
    obtain ⟨k, w⟩ := p
    by_cases hk : k = a
    · subst hk
      rw [List.filter_cons_of_neg (by simp), ih, Memory.lookup_cons]
      split <;> rfl
    · rw [List.filter_cons_of_pos (by simpa using hk), Memory.lookup_cons, Memory.lookup_cons, ih]
      by_cases hb : b = k
      · subst hb
        rw [if_pos rfl, if_neg hk, if_pos rfl]
      · rw [if_neg hb, if_neg hb]

/-! ### Reads after writes -/

/-- `MemWrite` replaces the byte at its address and changes nothing else (R33). -/
theorem Memory.read_write (m : Memory) (a b : Nat) (x : Byte) :
    Memory.read c (Memory.write c m a x) b = if b = a then x else Memory.read c m b := by
  unfold Memory.read Memory.write
  split
  · rename_i hx
    rw [Memory.lookup_erase]
    split
    · rename_i hb
      subst hb
      exact hx.symm
    · rfl
  · rw [Memory.lookup_insert]
    split <;> rfl

@[simp] theorem Memory.read_nil (a : Nat) : Memory.read c [] a = Memory.background c a := rfl

/-- Every byte a multi-byte write lays out, and nothing else, is new (R38). -/
theorem Memory.read_writeBytes (xs : List Byte) (m : Memory) (a b : Nat) :
    Memory.read c (Memory.writeBytes c m a xs) b =
      if a ≤ b then (xs[b - a]?).getD (Memory.read c m b) else Memory.read c m b := by
  induction xs generalizing m a with
  | nil => simp [Memory.writeBytes]
  | cons x xs ih =>
    simp only [Memory.writeBytes, ih, Memory.read_write]
    rcases Nat.lt_trichotomy a b with h | h | h
    · rw [if_pos (Nat.succ_le_of_lt h), if_pos h.le, if_neg h.ne']
      obtain ⟨d, rfl⟩ : ∃ d, b = a + 1 + d := ⟨b - (a + 1), by omega⟩
      rw [show a + 1 + d - (a + 1) = d by omega, show a + 1 + d - a = d + 1 by omega,
        List.getElem?_cons_succ]
    · subst h
      simp
    · rw [if_neg (by omega), if_neg (by omega), if_neg (by omega)]

theorem Memory.read_writeBytes_inside {xs : List Byte} (m : Memory) (a : Nat) {k : Nat}
    (h : k < xs.length) : Memory.read c (Memory.writeBytes c m a xs) (a + k) = xs[k] := by
  rw [Memory.read_writeBytes, if_pos (Nat.le_add_right a k), Nat.add_sub_cancel_left,
    List.getElem?_eq_getElem h, Option.getD_some]

theorem Memory.read_writeBytes_outside {xs : List Byte} (m : Memory) (a : Nat) {b : Nat}
    (h : b < a ∨ a + xs.length ≤ b) :
    Memory.read c (Memory.writeBytes c m a xs) b = Memory.read c m b := by
  rw [Memory.read_writeBytes]
  split
  · rw [List.getElem?_eq_none (by omega), Option.getD_none]
  · rfl

@[simp] theorem Memory.length_readBytes (m : Memory) (a n : Nat) :
    (Memory.readBytes c m a n).length = n := by simp [Memory.readBytes]

theorem Memory.getElem?_readBytes (m : Memory) (a n k : Nat) :
    (Memory.readBytes c m a n)[k]? = if k < n then some (Memory.read c m (a + k)) else none := by
  unfold Memory.readBytes
  rw [List.getElem?_map]
  split
  · rename_i h
    rw [List.getElem?_range h]; rfl
  · rename_i h
    rw [List.getElem?_eq_none (by simpa using h)]; rfl

/-! ### What an unwritten address reads as -/

/-- The font bytes (R23, R32). -/
theorem Memory.background_font (k : Fin fontBytes) :
    Memory.background c (c.fontBase.val + k.val) = c.fontData[k] := by
  have hb := c.fontBase.isLt
  have hk : k.val < 80 := k.isLt
  unfold Memory.background
  rw [if_pos (show c.fontBase.val + k.val < 0x200 by omega), if_pos (Nat.le_add_right _ _),
    Nat.add_sub_cancel_left]
  simp

/-- Zero outside the font (R23, R31). -/
theorem Memory.background_zero {a : Nat} (h : a < c.fontBase.val ∨ c.fontBase.val + 79 < a) :
    Memory.background c a = 0 := by
  unfold Memory.background
  split
  · split
    · have h' : ¬ a - c.fontBase.val < 80 := by omega
      simp [h']
    · rfl
  · rfl

/-! ### The canonical form -/

theorem Memory.mem_insert {m : Memory} {a : Nat} {x : Byte} {p : Host.Cell}
    (h : p ∈ Memory.insert m a x) : p = (a, x) ∨ p ∈ m := by
  induction m with
  | nil => simpa [Memory.insert] using h
  | cons q rest ih =>
    obtain ⟨k, w⟩ := q
    simp only [Memory.insert] at h
    split at h
    · simpa using h
    · split at h
      · rcases List.mem_cons.1 h with h | h
        · exact .inl h
        · exact .inr (List.mem_cons_of_mem _ h)
      · rcases List.mem_cons.1 h with h | h
        · exact .inr (h ▸ List.mem_cons_self)
        · exact (ih h).imp_right (List.mem_cons_of_mem _)

theorem Memory.pairwise_insert {m : Memory} (hm : m.Pairwise fun p q => p.1 < q.1) (a : Nat) (x : Byte) :
    (Memory.insert m a x).Pairwise fun p q => p.1 < q.1 := by
  induction m with
  | nil => simp [Memory.insert]
  | cons q rest ih =>
    obtain ⟨k, w⟩ := q
    obtain ⟨hq, hr⟩ := List.pairwise_cons.1 hm
    simp only [Memory.insert]
    split
    · rename_i hlt
      refine List.pairwise_cons.2 ⟨fun p hp => ?_, hm⟩
      rcases List.mem_cons.1 hp with rfl | hp
      · exact hlt
      · exact hlt.trans (hq p hp)
    · split
      · rename_i heq
        subst heq
        exact List.pairwise_cons.2 ⟨hq, hr⟩
      · rename_i hlt hne
        refine List.pairwise_cons.2 ⟨fun p hp => ?_, ih hr⟩
        rcases Memory.mem_insert hp with rfl | hp
        · exact (by omega : k < a)
        · exact hq p hp

/-- A write to an address of memory keeps the canonical form. -/
theorem Memory.wf_write {m : Memory} (hm : Memory.wf c m) {a : Nat} (ha : a < memSize) (x : Byte) :
    Memory.wf c (Memory.write c m a x) := by
  unfold Memory.write
  split
  · refine ⟨hm.1.filter _, fun p hp => hm.2 p (List.mem_of_mem_filter hp)⟩
  · rename_i hx
    refine ⟨Memory.pairwise_insert hm.1 a x, fun p hp => ?_⟩
    rcases Memory.mem_insert hp with rfl | hp
    · exact ⟨ha, hx⟩
    · exact hm.2 p hp

theorem Memory.wf_writeBytes {xs : List Byte} {m : Memory} (hm : Memory.wf c m) {a : Nat}
    (ha : a + xs.length ≤ memSize) : Memory.wf c (Memory.writeBytes c m a xs) := by
  induction xs generalizing m a with
  | nil => exact hm
  | cons x xs ih =>
    rw [List.length_cons] at ha
    exact ih (Memory.wf_write c hm (by omega) x) (by omega)

theorem Memory.wf_nil : Memory.wf c [] := ⟨List.Pairwise.nil, fun _ h => absurd h List.not_mem_nil⟩

/-! ### Equal contents are equal data -/

theorem Memory.lookup_eq_none {m : Memory} {a : Nat} (h : ∀ p ∈ m, a < p.1) :
    Memory.lookup m a = none := by
  induction m with
  | nil => rfl
  | cons p rest ih =>
    have hp := h p List.mem_cons_self
    rw [show p = (p.1, p.2) from rfl, Memory.lookup_cons, if_neg (by omega)]
    exact ih fun q hq => h q (List.mem_cons_of_mem _ hq)

theorem Memory.lookup_ne_background {m : Memory} (hm : Memory.wf c m) {a : Nat} {w : Byte}
    (h : Memory.lookup m a = some w) : w ≠ Memory.background c a := by
  induction m with
  | nil => simp at h
  | cons p rest ih =>
    obtain ⟨k, u⟩ := p
    rw [Memory.lookup_cons] at h
    split at h
    · rename_i hk
      subst hk
      cases h
      exact (hm.2 _ List.mem_cons_self).2
    · exact ih ⟨(List.pairwise_cons.1 hm.1).2, fun q hq => hm.2 q (List.mem_cons_of_mem _ hq)⟩ h

theorem Memory.lookup_eq_of_read_eq {m n : Memory} (hm : Memory.wf c m) (hn : Memory.wf c n) {a : Nat}
    (h : Memory.read c m a = Memory.read c n a) : Memory.lookup m a = Memory.lookup n a := by
  unfold Memory.read at h
  cases h1 : Memory.lookup m a with
  | none =>
    cases h2 : Memory.lookup n a with
    | none => rfl
    | some w => rw [h1, h2] at h; exact absurd h.symm (Memory.lookup_ne_background c hn h2)
  | some u =>
    cases h2 : Memory.lookup n a with
    | none => rw [h1, h2] at h; exact absurd h (Memory.lookup_ne_background c hm h1)
    | some w => rw [h1, h2] at h; exact congrArg some h

theorem Memory.eq_of_lookup_eq {m n : Memory} (hm : m.Pairwise fun p q => p.1 < q.1)
    (hn : n.Pairwise fun p q => p.1 < q.1) (h : ∀ a, Memory.lookup m a = Memory.lookup n a) : m = n := by
  induction m generalizing n with
  | nil =>
    cases n with
    | nil => rfl
    | cons q r => simpa [Memory.lookup] using h q.1
  | cons p rest ih =>
    obtain ⟨hp, hr⟩ := List.pairwise_cons.1 hm
    cases n with
    | nil => simpa [Memory.lookup] using h p.1
    | cons q r =>
      obtain ⟨k, u⟩ := p
      obtain ⟨l, w⟩ := q
      obtain ⟨hq, hr'⟩ := List.pairwise_cons.1 hn
      have hk : k = l := by
        rcases Nat.lt_trichotomy k l with hlt | he | hlt
        · have := h k
          rw [Memory.lookup_cons, if_pos rfl, Memory.lookup_eq_none (fun p hp => ?_)] at this
          · cases this
          · rcases List.mem_cons.1 hp with rfl | hp
            · exact hlt
            · exact hlt.trans (hq p hp)
        · exact he
        · have := h l
          rw [Memory.lookup_cons (b := l), if_pos rfl, Memory.lookup_eq_none (fun z hz => ?_)] at this
          · cases this
          · rcases List.mem_cons.1 hz with rfl | hz
            · exact hlt
            · exact hlt.trans (hp z hz)
      subst hk
      have hu : u = w := by simpa [Memory.lookup_cons] using h k
      subst hu
      refine congrArg _ (ih hr hr' fun a => ?_)
      by_cases ha : a = k
      · subst ha
        rw [Memory.lookup_eq_none hp, Memory.lookup_eq_none hq]
      · simpa [Memory.lookup_cons, ha] using h a

/-- In canonical form, memories that read the same everywhere are the same list. -/
theorem Memory.eq_of_read_eq {m n : Memory} (hm : Memory.wf c m) (hn : Memory.wf c n)
    (h : ∀ a, Memory.read c m a = Memory.read c n a) : m = n :=
  Memory.eq_of_lookup_eq hm.1 hn.1 fun a => Memory.lookup_eq_of_read_eq c hm hn (h a)

end Sys2Proof.Machine
end

