-- ==== Sys2Proof/Laws/Ops.lean ====
section
/-! SUPPORT. What each shared operation over `pc`, the stack, the keys and data ranges can do, said once
(spec/10_state.md R15, R16, R20; spec/20_memory.md R34; spec/40_fetch_decode_execute.md R71). -/

namespace Sys2Proof.Machine

/-! ### Range checks -/

/-- A range check that answers a next state has passed, and the body answered it. -/
theorem inRange_next {hi : Nat} {k : Result} {t : State} (h : inRange hi k = .next t) :
    hi ≤ lastAddr ∧ k = .next t := by
  unfold inRange raise at h
  split at h
  · cases h
  · exact ⟨by omega, h⟩

theorem inRange_of_le {hi : Nat} (h : hi ≤ lastAddr) (k : Result) : inRange hi k = k :=
  if_neg (by omega)

theorem inRange_of_gt {hi : Nat} (h : lastAddr < hi) (k : Result) :
    inRange hi k = .fault (.addressOutOfRange hi) := if_pos h

/-! ### The call stack -/

/-- A push onto a stack with `k` entries, `k < 16` (R82). -/
theorem State.push_some (s : State) (a : Word) {k : Fin 16} (h : s.sp.val = k.val) :
    s.push a = some { s with stack := s.stack.set k a, sp := k.succ } := by
  have hlt : s.sp.val < stackDepth := h ▸ k.isLt
  unfold State.push
  rw [dif_pos hlt]
  have hsp : (⟨s.sp.val + 1, Nat.succ_lt_succ hlt⟩ : Fin 17) = k.succ := Fin.ext (by simp [h])
  rw [hsp]
  simp only [h]

theorem State.push_none (s : State) (a : Word) (h : s.sp.val = 16) : s.push a = none :=
  dif_neg (by simp [h])

/-- Everything a push that succeeds can do. -/
theorem State.push_eq_some {s t : State} {a : Word} (h : s.push a = some t) :
    ∃ k : Fin 16, s.sp.val = k.val ∧ t = { s with stack := s.stack.set k a, sp := k.succ } := by
  by_cases hlt : s.sp.val < 16
  · rw [State.push_some s a (k := ⟨s.sp.val, hlt⟩) rfl] at h
    exact ⟨⟨s.sp.val, hlt⟩, rfl, (Option.some.inj h).symm⟩
  · rw [State.push_none s a (by have := s.sp.isLt; omega)] at h
    cases h

/-- A pop from a stack with `k + 1` entries: the top, and the stack array as it was (R80). -/
theorem State.pop_some (s : State) {k : Fin 16} (h : s.sp.val = k.val + 1) :
    s.pop = some (s.stack[k], { s with sp := k.castSucc }) := by
  have hlt : 0 < s.sp.val := by omega
  unfold State.pop
  rw [dif_pos hlt]
  have hsp : (⟨s.sp.val - 1, by omega⟩ : Fin 17) = k.castSucc := Fin.ext (by simp [h])
  rw [hsp]
  simp [h]

theorem State.pop_none (s : State) (h : s.sp.val = 0) : s.pop = none := dif_neg (by omega)

/-- Everything a pop that succeeds can do. -/
theorem State.pop_eq_some {s t : State} {a : Word} (h : s.pop = some (a, t)) :
    ∃ k : Fin 16, s.sp.val = k.val + 1 ∧ a = s.stack[k] ∧ t = { s with sp := k.castSucc } := by
  by_cases hlt : 0 < s.sp.val
  · have hsp := s.sp.isLt
    have hk : s.sp.val = (⟨s.sp.val - 1, by omega⟩ : Fin 16).val + 1 := by simp; omega
    rw [State.pop_some s hk] at h
    have h := Option.some.inj h
    exact ⟨_, hk, (congrArg Prod.fst h).symm, (congrArg Prod.snd h).symm⟩
  · rw [State.pop_none s (by omega)] at h
    cases h

/-! ### Keys -/

theorem keyOf_some {b : Byte} {k : Key} (h : b.toNat = k.val) : keyOf b = some k := by
  unfold keyOf
  rw [dif_pos (h ▸ k.isLt)]
  exact congrArg some (Fin.ext h)

theorem keyOf_none {b : Byte} (h : 15 < b.toNat) : keyOf b = none := dif_neg (by omega)

theorem keyOf_eq_some {b : Byte} {k : Key} (h : keyOf b = some k) : b.toNat = k.val := by
  unfold keyOf at h
  split at h
  · cases h; rfl
  · cases h

/-- A key test that answers a next state had a key number in its register (R130). -/
theorem withKey_next {s t : State} {x : Reg} {k : Key → Result} (h : withKey s x k = .next t) :
    ∃ key, (s.readV x).toNat = key.val ∧ k key = .next t := by
  unfold withKey raise at h
  split at h
  · cases h
  · rename_i key hk
    exact ⟨key, keyOf_eq_some hk, h⟩

theorem withKey_of_key {s : State} {x : Reg} (k : Key → Result) {key : Key}
    (h : (s.readV x).toNat = key.val) : withKey s x k = k key := by
  unfold withKey
  rw [keyOf_some h]

theorem withKey_of_gt {s : State} {x : Reg} (k : Key → Result) (h : 15 < (s.readV x).toNat) :
    withKey s x k = .fault (.keyIndexOutOfRange (s.readV x)) := by
  unfold withKey
  rw [keyOf_none h]
  rfl

theorem keyByte_toNat (k : Key) : (keyByte k).toNat = k.val := by
  have := k.isLt
  simp [keyByte]
  omega

/-- The scan finds the least key that is down (R132). -/
theorem State.firstKey_eq_some {s : State} {k : Key} :
    s.firstKey = some k ↔ s.keyDown k = true ∧ ∀ j, j < k → s.keyDown j = false := by
  unfold State.firstKey
  rw [List.find?_eq_some_iff_getElem]
  constructor
  · rintro ⟨hk, i, hi, he, hlt⟩
    rw [List.getElem_finRange] at he
    refine ⟨hk, fun j hj => ?_⟩
    have hji : j.val < i := by
      have hik : i = k.val := by rw [← he]; simp
      rw [hik]
      exact hj
    have := hlt j.val hji
    rw [List.getElem_finRange] at this
    simpa using this
  · rintro ⟨hk, hlt⟩
    refine ⟨hk, k.val, by simp, by simp, fun j hj => ?_⟩
    have hj' : j < 16 := by have := k.isLt; omega
    have := hlt ⟨j, hj'⟩ hj
    simpa using this

theorem State.firstKey_eq_none {s : State} : s.firstKey = none ↔ ∀ k, s.keyDown k = false := by
  unfold State.firstKey
  simp [List.find?_eq_none]

/-! ### The fetch -/

theorem wordOfBytes_eq (hi lo : Byte) : wordOfBytes hi lo = BitVec.ofNat 16 (256 * hi.toNat + lo.toNat) := by
  have h1 := hi.isLt
  have h2 := lo.isLt
  have h : (hi ++ lo : BitVec (8 + 8)).toNat = 256 * hi.toNat + lo.toNat := by
    rw [BitVec.toNat_append, ← Nat.shiftLeft_add_eq_or_of_lt h2, Nat.shiftLeft_eq]
    omega
  apply BitVec.eq_of_toNat_eq
  rw [BitVec.toNat_ofNat]
  unfold wordOfBytes
  show (hi ++ lo : BitVec (8 + 8)).toNat = _
  rw [h]
  omega

theorem wordOfBytes_highByte_lowByte (op : Word) : wordOfBytes (highByte op) (lowByte op) = op := by
  have := op.isLt
  rw [wordOfBytes_eq]
  apply BitVec.eq_of_toNat_eq
  simp [highByte, lowByte, Nat.shiftRight_eq_div_pow]
  omega

/-- The fetch of two bytes in memory: big-endian (R37, R71). -/
theorem fetch_ok {c : Config} {s : State} (h : s.pc.toNat + 1 ≤ lastAddr) :
    fetch c s = .ok (BitVec.ofNat 16
      (256 * (Memory.read c s.mem s.pc.toNat).toNat + (Memory.read c s.mem (s.pc.toNat + 1)).toNat)) := by
  unfold fetch
  rw [if_neg (by omega), wordOfBytes_eq]

theorem fetch_error {c : Config} {s : State} (h : lastAddr < s.pc.toNat + 1) :
    fetch c s = .error (.addressOutOfRange s.pc.toNat) := if_pos h

/-- Everything a fetch that succeeds can be. -/
theorem fetch_eq_ok {c : Config} {s : State} {op : Word} (h : fetch c s = .ok op) :
    s.pc.toNat + 1 ≤ lastAddr ∧ op = BitVec.ofNat 16
      (256 * (Memory.read c s.mem s.pc.toNat).toNat + (Memory.read c s.mem (s.pc.toNat + 1)).toNat) := by
  by_cases hp : lastAddr < s.pc.toNat + 1
  · rw [fetch_error hp] at h
    cases h
  · rw [fetch_ok (by omega)] at h
    cases h
    exact ⟨by omega, rfl⟩

end Sys2Proof.Machine
end

