-- ==== Sys2Proof/Laws/Decode.lean ====
section
/-! SUPPORT. The formats and the fields as numbers: each format's word, each field of each format, and
each word as a format of its fields (spec/30_encoding.md R51, R52). -/

namespace Sys2Proof

/-! ### The words of the formats as numbers -/

theorem toNat_nibble (x : Fin 16) : (nibble x).toNat = x.val := rfl

theorem toNat_formatA (h : BitVec 4) (nnn : Addr12) :
    (formatA h nnn).toNat = 0x1000 * h.toNat + nnn.toNat := by
  show (h ++ nnn : BitVec (4 + 12)).toNat = _
  rw [BitVec.toNat_append, ← Nat.shiftLeft_add_eq_or_of_lt nnn.isLt, Nat.shiftLeft_eq]
  omega

theorem toNat_formatXK (h : BitVec 4) (x : Reg) (kk : Byte) :
    (formatXK h x kk).toNat = 0x1000 * h.toNat + 0x100 * x.val + kk.toNat := by
  show (h ++ nibble x ++ kk : BitVec (4 + 4 + 8)).toNat = _
  rw [BitVec.toNat_append, ← Nat.shiftLeft_add_eq_or_of_lt kk.isLt, Nat.shiftLeft_eq,
    BitVec.toNat_append, ← Nat.shiftLeft_add_eq_or_of_lt (nibble x).isLt, Nat.shiftLeft_eq, toNat_nibble]
  omega

theorem toNat_formatXYN (h : BitVec 4) (x y : Reg) (n : BitVec 4) :
    (formatXYN h x y n).toNat = 0x1000 * h.toNat + 0x100 * x.val + 0x10 * y.val + n.toNat := by
  show (h ++ nibble x ++ nibble y ++ n : BitVec (4 + 4 + 4 + 4)).toNat = _
  rw [BitVec.toNat_append, ← Nat.shiftLeft_add_eq_or_of_lt n.isLt, Nat.shiftLeft_eq,
    BitVec.toNat_append, ← Nat.shiftLeft_add_eq_or_of_lt (nibble y).isLt, Nat.shiftLeft_eq,
    BitVec.toNat_append, ← Nat.shiftLeft_add_eq_or_of_lt (nibble x).isLt, Nat.shiftLeft_eq,
    toNat_nibble, toNat_nibble]
  omega

/-! ### The bits of the formats -/

theorem getLsbD_formatA (h : BitVec 4) (nnn : Addr12) (i : Nat) :
    (formatA h nnn).getLsbD i = if i < 12 then nnn.getLsbD i else h.getLsbD (i - 12) := by
  show (h ++ nnn : BitVec (4 + 12)).getLsbD i = _
  rw [BitVec.getLsbD_append]

theorem getLsbD_formatXK (h : BitVec 4) (x : Reg) (kk : Byte) (i : Nat) :
    (formatXK h x kk).getLsbD i = if i < 8 then kk.getLsbD i else
      if i - 8 < 4 then (nibble x).getLsbD (i - 8) else h.getLsbD (i - 8 - 4) := by
  show (h ++ nibble x ++ kk : BitVec (4 + 4 + 8)).getLsbD i = _
  rw [BitVec.getLsbD_append, BitVec.getLsbD_append]

theorem getLsbD_formatXYN (h : BitVec 4) (x y : Reg) (n : BitVec 4) (i : Nat) :
    (formatXYN h x y n).getLsbD i = if i < 4 then n.getLsbD i else
      if i - 4 < 4 then (nibble y).getLsbD (i - 4) else
      if i - 4 - 4 < 4 then (nibble x).getLsbD (i - 4 - 4) else h.getLsbD (i - 4 - 4 - 4) := by
  show (h ++ nibble x ++ nibble y ++ n : BitVec (4 + 4 + 4 + 4)).getLsbD i = _
  rw [BitVec.getLsbD_append, BitVec.getLsbD_append, BitVec.getLsbD_append]

/-! ### The fields as numbers -/

theorem toNat_fieldH (op : Word) : (fieldH op).toNat = op.toNat / 0x1000 := by
  have := op.isLt
  simp [fieldH, Nat.shiftRight_eq_div_pow]
  omega

theorem val_fieldX (op : Word) : (fieldX op).val = op.toNat / 0x100 % 16 := by
  show (op.extractLsb' 8 4).toNat = _
  simp [Nat.shiftRight_eq_div_pow]

theorem val_fieldY (op : Word) : (fieldY op).val = op.toNat / 0x10 % 16 := by
  show (op.extractLsb' 4 4).toNat = _
  simp [Nat.shiftRight_eq_div_pow]

theorem val_fieldHeight (op : Word) : (fieldHeight op).val = op.toNat % 16 := by
  show (op.extractLsb' 0 4).toNat = _
  simp

theorem toNat_fieldN (op : Word) : (fieldN op).toNat = op.toNat % 16 := by simp [fieldN]

theorem toNat_fieldKK (op : Word) : (fieldKK op).toNat = op.toNat % 0x100 := by simp [fieldKK]

theorem toNat_fieldNNN (op : Word) : (fieldNNN op).toNat = op.toNat % 0x1000 := by simp [fieldNNN]

/-! ### The fields of the formats -/

section fields
variable (h : BitVec 4) (x y : Reg) (kk : Byte) (n : BitVec 4) (m : Height) (nnn : Addr12)

@[simp] theorem fieldH_formatA : fieldH (formatA h nnn) = h := by
  apply BitVec.eq_of_toNat_eq
  have := nnn.isLt
  rw [toNat_fieldH, toNat_formatA]
  omega

@[simp] theorem fieldNNN_formatA : fieldNNN (formatA h nnn) = nnn := by
  apply BitVec.eq_of_toNat_eq
  have := nnn.isLt
  rw [toNat_fieldNNN, toNat_formatA]
  omega

@[simp] theorem fieldH_formatXK : fieldH (formatXK h x kk) = h := by
  apply BitVec.eq_of_toNat_eq
  have := kk.isLt
  rw [toNat_fieldH, toNat_formatXK]
  omega

@[simp] theorem fieldX_formatXK : fieldX (formatXK h x kk) = x := by
  apply Fin.ext
  have := kk.isLt
  rw [val_fieldX, toNat_formatXK]
  omega

@[simp] theorem fieldKK_formatXK : fieldKK (formatXK h x kk) = kk := by
  apply BitVec.eq_of_toNat_eq
  have := kk.isLt
  rw [toNat_fieldKK, toNat_formatXK]
  omega

@[simp] theorem fieldH_formatXYN : fieldH (formatXYN h x y n) = h := by
  apply BitVec.eq_of_toNat_eq
  have := n.isLt
  rw [toNat_fieldH, toNat_formatXYN]
  omega

@[simp] theorem fieldX_formatXYN : fieldX (formatXYN h x y n) = x := by
  apply Fin.ext
  have := n.isLt
  rw [val_fieldX, toNat_formatXYN]
  omega

@[simp] theorem fieldY_formatXYN : fieldY (formatXYN h x y n) = y := by
  apply Fin.ext
  have := n.isLt
  rw [val_fieldY, toNat_formatXYN]
  omega

@[simp] theorem fieldN_formatXYN : fieldN (formatXYN h x y n) = n := by
  apply BitVec.eq_of_toNat_eq
  have := n.isLt
  rw [toNat_fieldN, toNat_formatXYN]
  omega

@[simp] theorem fieldHeight_formatXYN : fieldHeight (formatXYN h x y (nibble m)) = m := by
  apply Fin.ext
  rw [val_fieldHeight, toNat_formatXYN, toNat_nibble]
  omega

end fields

/-! ### Every word as a format of its fields -/

theorem formatA_fields (op : Word) : formatA (fieldH op) (fieldNNN op) = op := by
  apply BitVec.eq_of_toNat_eq
  rw [toNat_formatA, toNat_fieldH, toNat_fieldNNN]
  omega

theorem formatXK_fields (op : Word) : formatXK (fieldH op) (fieldX op) (fieldKK op) = op := by
  apply BitVec.eq_of_toNat_eq
  rw [toNat_formatXK, toNat_fieldH, val_fieldX, toNat_fieldKK]
  omega

theorem formatXYN_fields (op : Word) : formatXYN (fieldH op) (fieldX op) (fieldY op) (fieldN op) = op := by
  apply BitVec.eq_of_toNat_eq
  rw [toNat_formatXYN, toNat_fieldH, val_fieldX, val_fieldY, toNat_fieldN]
  omega

theorem nibble_fieldHeight (op : Word) : nibble (fieldHeight op) = fieldN op := rfl

/-! ### Words written as numbers -/

theorem ofNat_formatA {w : Nat} {h : BitVec 4} {nnn : Addr12} (e : w = 0x1000 * h.toNat + nnn.toNat) :
    BitVec.ofNat 16 w = formatA h nnn := by
  rw [e, ← toNat_formatA, BitVec.ofNat_toNat, BitVec.setWidth_eq]

theorem ofNat_formatXK {w : Nat} {h : BitVec 4} {x : Reg} {kk : Byte}
    (e : w = 0x1000 * h.toNat + 0x100 * x.val + kk.toNat) : BitVec.ofNat 16 w = formatXK h x kk := by
  rw [e, ← toNat_formatXK, BitVec.ofNat_toNat, BitVec.setWidth_eq]

theorem ofNat_formatXYN {w : Nat} {h : BitVec 4} {x y : Reg} {n : BitVec 4}
    (e : w = 0x1000 * h.toNat + 0x100 * x.val + 0x10 * y.val + n.toNat) :
    BitVec.ofNat 16 w = formatXYN h x y n := by
  rw [e, ← toNat_formatXYN, BitVec.ofNat_toNat, BitVec.setWidth_eq]

end Sys2Proof
end

