-- ==== Sys2Proof/Laws/Display.lean ====
section
/-! SUPPORT. The compositor: one pixel, and a whole sprite as the list of its dots (spec/44_display.md
R121, R122, R123). -/

namespace Sys2Proof.Machine

/-- `FB[x, y] <- b` seen through any pixel. -/
theorem Framebuffer.pixel_setPixel (fb : Framebuffer) (x x' : Col) (y y' : Row) (b : Bool) :
    (fb.setPixel x y b).pixel x' y' = if x' = x ∧ y' = y then b else fb.pixel x' y' := by
  have hrow : (fb.set y.val (fb[y.val].set x.val b))[y'.val] =
      if y' = y then fb[y.val].set x.val b else fb[y'.val] := by
    by_cases hy : y' = y
    · subst hy
      rw [if_pos rfl, Vector.getElem_set_self]
    · rw [if_neg hy, Vector.getElem_set_ne _ _ (fun h => hy (Fin.ext h.symm))]
  show ((fb.set y.val (fb[y.val].set x.val b))[y'.val])[x'.val] = _
  rw [hrow]
  by_cases hy : y' = y
  · subst hy
    by_cases hx : x' = x
    · subst hx
      rw [if_pos rfl, if_pos ⟨rfl, rfl⟩, Vector.getElem_set_self]
    · rw [if_pos rfl, if_neg (fun h => hx h.1), Vector.getElem_set_ne _ _ (fun h => hx (Fin.ext h.symm))]
      rfl
  · rw [if_neg hy, if_neg (fun h => hy h.2)]
    rfl

theorem Framebuffer.pixel_blank (x : Col) (y : Row) : Framebuffer.blank.pixel x y = false := by
  simp [Framebuffer.pixel]

/-- One incoming bit at one place of the screen. -/
abbrev Dot := Col × Row × Bool

/-- The place of a dot. -/
abbrev Dot.place (d : Dot) : Col × Row := (d.1, d.2.1)

/-- The dots of a sprite drawn at a place, from row offset `r` on. -/
def spriteDots (x0 : Col) (y0 : Row) (r : Nat) : List Byte → List Dot
  | [] => []
  | b :: rest => (List.range 8).map (fun k => (wrapCol (x0.val + k), wrapRow (y0.val + r), b.getLsbD (7 - k)))
      ++ spriteDots x0 y0 (r + 1) rest

/-- Dots blended one after the other. -/
def blendDots (acc : Framebuffer × Bool) (ds : List Dot) : Framebuffer × Bool :=
  ds.foldl (fun a d => blendPixel a d.1 d.2.1 d.2.2) acc

/-- A sprite is its dots. -/
theorem blendRows_eq_blendDots (rows : List Byte) (acc : Framebuffer × Bool) (x0 : Col) (y0 : Row) (r : Nat) :
    blendRows acc x0 y0 r rows = blendDots acc (spriteDots x0 y0 r rows) := by
  induction rows generalizing acc r with
  | nil => rfl
  | cons b rest ih =>
    rw [blendRows, ih, spriteDots, blendDots, blendDots, List.foldl_append, List.foldl_map]
    rfl

theorem drawSprite_eq (fb : Framebuffer) (x0 : Col) (y0 : Row) (rows : List Byte) :
    drawSprite fb x0 y0 rows = blendDots (fb, false) (spriteDots x0 y0 0 rows) :=
  blendRows_eq_blendDots rows _ x0 y0 0

/-- The dots are the bits of the rows, each at its own wrapped place. -/
theorem mem_spriteDots {rows : List Byte} {x0 : Col} {y0 : Row} {r : Nat} {d : Dot} :
    d ∈ spriteDots x0 y0 r rows ↔ ∃ j k, ∃ hj : j < rows.length, k < 8 ∧
      d = (wrapCol (x0.val + k), wrapRow (y0.val + (r + j)), rows[j].getLsbD (7 - k)) := by
  induction rows generalizing r with
  | nil => simp [spriteDots]
  | cons b rest ih =>
    rw [spriteDots, List.mem_append, ih, List.mem_map]
    constructor
    · rintro (⟨k, hk, rfl⟩ | ⟨j, k, hj, hk, rfl⟩)
      · exact ⟨0, k, Nat.succ_pos _, List.mem_range.1 hk, rfl⟩
      · exact ⟨j + 1, k, Nat.succ_lt_succ hj, hk, by rw [Nat.add_right_comm r 1 j]; rfl⟩
    · rintro ⟨j, k, hj, hk, rfl⟩
      cases j with
      | zero => exact .inl ⟨k, List.mem_range.2 hk, rfl⟩
      | succ j =>
        exact .inr ⟨j, k, Nat.lt_of_succ_lt_succ hj, hk, by rw [Nat.add_right_comm r 1 j]; rfl⟩

/-- No two dots of a sprite of at most 32 rows share a place (R121, corner case (a)). -/
theorem spriteDots_nodup {rows : List Byte} (x0 : Col) (y0 : Row) (r : Nat) (h : rows.length ≤ 32) :
    ((spriteDots x0 y0 r rows).map Dot.place).Nodup := by
  induction rows generalizing r with
  | nil => simp [spriteDots]
  | cons b rest ih =>
    rw [List.length_cons] at h
    rw [spriteDots, List.map_append, List.map_map]
    refine List.Nodup.append ?_ (ih (r + 1) (by omega)) ?_
    · refine List.Nodup.map_on ?_ (List.nodup_range)
      intro j hj k hk hjk
      have hj := List.mem_range.1 hj
      have hk := List.mem_range.1 hk
      have := congrArg (fun p : Col × Row => p.1.val) hjk
      simp only [Function.comp, wrapCol] at this
      omega
    · intro p hp hp'
      obtain ⟨k, hk, rfl⟩ := List.mem_map.1 hp
      obtain ⟨d, hd, he⟩ := List.mem_map.1 hp'
      obtain ⟨j, k', hj, hk', rfl⟩ := mem_spriteDots.1 hd
      have := congrArg (fun p : Col × Row => p.2.val) he
      simp only [Function.comp, wrapRow] at this
      omega

/-- A place no dot is at keeps its pixel. -/
theorem blendDots_pixel_outside {ds : List Dot} {acc : Framebuffer × Bool} {x : Col} {y : Row}
    (h : ∀ d ∈ ds, d.place ≠ (x, y)) : (blendDots acc ds).1.pixel x y = acc.1.pixel x y := by
  induction ds generalizing acc with
  | nil => rfl
  | cons d rest ih =>
    rw [blendDots, List.foldl_cons, ← blendDots, ih fun e he => h e (List.mem_cons_of_mem _ he)]
    have hd := h d List.mem_cons_self
    rw [blendPixel, Framebuffer.pixel_setPixel, if_neg]
    rintro ⟨rfl, rfl⟩
    exact hd rfl

/-- The place of a dot has its pixel exclusive-ored with the dot's bit, when no two dots share a place. -/
theorem blendDots_pixel_inside {ds : List Dot} {acc : Framebuffer × Bool} {d : Dot} (hd : d ∈ ds)
    (hn : (ds.map Dot.place).Nodup) :
    (blendDots acc ds).1.pixel d.1 d.2.1 = (acc.1.pixel d.1 d.2.1 ^^ d.2.2) := by
  induction ds generalizing acc with
  | nil => exact absurd hd List.not_mem_nil
  | cons e rest ih =>
    rw [List.map_cons, List.nodup_cons] at hn
    rw [blendDots, List.foldl_cons, ← blendDots]
    have hne : ∀ f ∈ rest, f.place ≠ e.place := fun f hf he => hn.1 (he ▸ List.mem_map_of_mem hf)
    rcases List.mem_cons.1 hd with rfl | hd
    · rw [blendDots_pixel_outside hne, blendPixel, Framebuffer.pixel_setPixel, if_pos ⟨rfl, rfl⟩]
    · rw [ih hd hn.2, blendPixel, Framebuffer.pixel_setPixel, if_neg]
      rintro ⟨h1, h2⟩
      exact hne d hd (Prod.ext h1 h2)

/-- The flag is raised iff some dot's bit meets a pixel lit before (R121), when no two dots share a
place. -/
theorem blendDots_hit {ds : List Dot} {acc : Framebuffer × Bool} (hn : (ds.map Dot.place).Nodup) :
    (blendDots acc ds).2 = (acc.2 || ds.any fun d => d.2.2 && acc.1.pixel d.1 d.2.1) := by
  induction ds generalizing acc with
  | nil => simp [blendDots]
  | cons e rest ih =>
    rw [List.map_cons, List.nodup_cons] at hn
    rw [blendDots, List.foldl_cons, ← blendDots, ih hn.2, List.any_cons, ← Bool.or_assoc]
    have hcongr : (rest.any fun d => d.2.2 && (blendPixel acc e.1 e.2.1 e.2.2).1.pixel d.1 d.2.1)
        = rest.any fun d => d.2.2 && acc.1.pixel d.1 d.2.1 := by
      rw [Bool.eq_iff_iff, List.any_eq_true, List.any_eq_true]
      refine exists_congr fun d => and_congr_right fun hd => ?_
      rw [blendPixel, Framebuffer.pixel_setPixel, if_neg]
      rintro ⟨h1, h2⟩
      exact hn.1 (List.mem_map.2 ⟨d, hd, Prod.ext h1 h2⟩)
    rw [hcongr]
    rfl

end Sys2Proof.Machine
end

