-- ==== Sys2Proof/Laws/PerInstr.lean ====
section
/-! SUPPORT. The family `EncodesIntoItsRow`, one lemma per constructor: the word of an instruction is
selected by the row of the opcode map that bears the instruction's mnemonic (spec/30_encoding.md R55,
R57). -/

namespace Sys2Proof.Laws

/-! ### The four masks of the map -/

theorem and_F000 (op : Word) : op &&& 0xF000 = formatA (fieldH op) 0 := by
  apply BitVec.eq_of_getLsbD_eq
  intro i hi
  rw [getLsbD_formatA]
  unfold fieldH
  interval_cases i <;> simp

theorem and_F00F (op : Word) : op &&& 0xF00F = formatXYN (fieldH op) 0 0 (fieldN op) := by
  apply BitVec.eq_of_getLsbD_eq
  intro i hi
  rw [getLsbD_formatXYN]
  unfold fieldH fieldN nibble
  interval_cases i <;> simp

theorem and_F0FF (op : Word) : op &&& 0xF0FF = formatXK (fieldH op) 0 (fieldKK op) := by
  apply BitVec.eq_of_getLsbD_eq
  intro i hi
  rw [getLsbD_formatXK]
  unfold fieldH fieldKK nibble
  interval_cases i <;> simp

theorem formatA_selected {m : String} {v : Word} (h : BitVec 4) (nnn : Addr12) (e : formatA h 0 = v) :
    (OpcodeRow.mk m 0xF000 v).selects (formatA h nnn) = true := by
  rw [OpcodeRow.selects, beq_iff_eq, ← e, and_F000]
  simp

theorem formatXK_selected {m : String} {v : Word} (h : BitVec 4) (x : Reg) (kk : Byte)
    (e : formatA h 0 = v) : (OpcodeRow.mk m 0xF000 v).selects (formatXK h x kk) = true := by
  rw [OpcodeRow.selects, beq_iff_eq, ← e, and_F000]
  simp

theorem formatXYN_selected {m : String} {v : Word} (h : BitVec 4) (x y : Reg) (n : Height)
    (e : formatA h 0 = v) : (OpcodeRow.mk m 0xF000 v).selects (formatXYN h x y (nibble n)) = true := by
  rw [OpcodeRow.selects, beq_iff_eq, ← e, and_F000]
  simp

theorem formatX_selected {m : String} {v : Word} (h : BitVec 4) (x : Reg) (kk : Byte)
    (e : formatXK h 0 kk = v) : (OpcodeRow.mk m 0xF0FF v).selects (formatXK h x kk) = true := by
  rw [OpcodeRow.selects, beq_iff_eq, ← e, and_F0FF]
  simp

theorem formatXY_selected {m : String} {v : Word} (h : BitVec 4) (x y : Reg) (n : BitVec 4)
    (e : formatXYN h 0 0 n = v) : (OpcodeRow.mk m 0xF00F v).selects (formatXYN h x y n) = true := by
  rw [OpcodeRow.selects, beq_iff_eq, ← e, and_F00F]
  simp

/-! ### The family -/

/-- The instruction's word is selected by the row of its mnemonic. -/
def EncodesIntoItsRow.Statement (i : Instr) : Prop :=
  ∃ r ∈ rowsOf true, r.mnemonic = mnemonicOf i ∧ r.selects (encode i) = true

theorem EncodesIntoItsRow.cls : EncodesIntoItsRow.Statement .cls :=
  ⟨⟨"CLS", 0xFFFF, 0x00E0⟩, by decide, rfl, rfl⟩

theorem EncodesIntoItsRow.ret : EncodesIntoItsRow.Statement .ret :=
  ⟨⟨"RET", 0xFFFF, 0x00EE⟩, by decide, rfl, rfl⟩

theorem EncodesIntoItsRow.jp (nnn : Addr12) : EncodesIntoItsRow.Statement (.jp nnn) :=
  ⟨⟨"JP", 0xF000, 0x1000⟩, by decide, rfl, formatA_selected _ _ rfl⟩

theorem EncodesIntoItsRow.call (nnn : Addr12) : EncodesIntoItsRow.Statement (.call nnn) :=
  ⟨⟨"CALL", 0xF000, 0x2000⟩, by decide, rfl, formatA_selected _ _ rfl⟩

theorem EncodesIntoItsRow.seImm (x : Reg) (kk : Byte) : EncodesIntoItsRow.Statement (.seImm x kk) :=
  ⟨⟨"SE_IMM", 0xF000, 0x3000⟩, by decide, rfl, formatXK_selected _ _ _ rfl⟩

theorem EncodesIntoItsRow.sneImm (x : Reg) (kk : Byte) : EncodesIntoItsRow.Statement (.sneImm x kk) :=
  ⟨⟨"SNE_IMM", 0xF000, 0x4000⟩, by decide, rfl, formatXK_selected _ _ _ rfl⟩

theorem EncodesIntoItsRow.seReg (x : Reg) (y : Reg) : EncodesIntoItsRow.Statement (.seReg x y) :=
  ⟨⟨"SE_REG", 0xF00F, 0x5000⟩, by decide, rfl, formatXY_selected _ _ _ _ rfl⟩

theorem EncodesIntoItsRow.ldImm (x : Reg) (kk : Byte) : EncodesIntoItsRow.Statement (.ldImm x kk) :=
  ⟨⟨"LD_IMM", 0xF000, 0x6000⟩, by decide, rfl, formatXK_selected _ _ _ rfl⟩

theorem EncodesIntoItsRow.addImm (x : Reg) (kk : Byte) : EncodesIntoItsRow.Statement (.addImm x kk) :=
  ⟨⟨"ADD_IMM", 0xF000, 0x7000⟩, by decide, rfl, formatXK_selected _ _ _ rfl⟩

theorem EncodesIntoItsRow.or (x : Reg) (y : Reg) : EncodesIntoItsRow.Statement (.or x y) :=
  ⟨⟨"OR", 0xF00F, 0x8001⟩, by decide, rfl, formatXY_selected _ _ _ _ rfl⟩

theorem EncodesIntoItsRow.and (x : Reg) (y : Reg) : EncodesIntoItsRow.Statement (.and x y) :=
  ⟨⟨"AND", 0xF00F, 0x8002⟩, by decide, rfl, formatXY_selected _ _ _ _ rfl⟩

theorem EncodesIntoItsRow.xor (x : Reg) (y : Reg) : EncodesIntoItsRow.Statement (.xor x y) :=
  ⟨⟨"XOR", 0xF00F, 0x8003⟩, by decide, rfl, formatXY_selected _ _ _ _ rfl⟩

theorem EncodesIntoItsRow.addReg (x : Reg) (y : Reg) : EncodesIntoItsRow.Statement (.addReg x y) :=
  ⟨⟨"ADD_REG", 0xF00F, 0x8004⟩, by decide, rfl, formatXY_selected _ _ _ _ rfl⟩

theorem EncodesIntoItsRow.sub (x : Reg) (y : Reg) : EncodesIntoItsRow.Statement (.sub x y) :=
  ⟨⟨"SUB", 0xF00F, 0x8005⟩, by decide, rfl, formatXY_selected _ _ _ _ rfl⟩

theorem EncodesIntoItsRow.shr (x : Reg) (y : Reg) : EncodesIntoItsRow.Statement (.shr x y) :=
  ⟨⟨"SHR", 0xF00F, 0x8006⟩, by decide, rfl, formatXY_selected _ _ _ _ rfl⟩

theorem EncodesIntoItsRow.subn (x : Reg) (y : Reg) : EncodesIntoItsRow.Statement (.subn x y) :=
  ⟨⟨"SUBN", 0xF00F, 0x8007⟩, by decide, rfl, formatXY_selected _ _ _ _ rfl⟩

theorem EncodesIntoItsRow.shl (x : Reg) (y : Reg) : EncodesIntoItsRow.Statement (.shl x y) :=
  ⟨⟨"SHL", 0xF00F, 0x800E⟩, by decide, rfl, formatXY_selected _ _ _ _ rfl⟩

theorem EncodesIntoItsRow.sneReg (x : Reg) (y : Reg) : EncodesIntoItsRow.Statement (.sneReg x y) :=
  ⟨⟨"SNE_REG", 0xF00F, 0x9000⟩, by decide, rfl, formatXY_selected _ _ _ _ rfl⟩

theorem EncodesIntoItsRow.ldI (nnn : Addr12) : EncodesIntoItsRow.Statement (.ldI nnn) :=
  ⟨⟨"LD_I", 0xF000, 0xA000⟩, by decide, rfl, formatA_selected _ _ rfl⟩

theorem EncodesIntoItsRow.jpV0 (nnn : Addr12) : EncodesIntoItsRow.Statement (.jpV0 nnn) :=
  ⟨⟨"JP_V0", 0xF000, 0xB000⟩, by decide, rfl, formatA_selected _ _ rfl⟩

theorem EncodesIntoItsRow.rnd (x : Reg) (kk : Byte) : EncodesIntoItsRow.Statement (.rnd x kk) :=
  ⟨⟨"RND", 0xF000, 0xC000⟩, by decide, rfl, formatXK_selected _ _ _ rfl⟩

theorem EncodesIntoItsRow.drw (x : Reg) (y : Reg) (n : Height) : EncodesIntoItsRow.Statement (.drw x y n) :=
  ⟨⟨"DRW", 0xF000, 0xD000⟩, by decide, rfl, formatXYN_selected _ _ _ _ rfl⟩

theorem EncodesIntoItsRow.skp (x : Reg) : EncodesIntoItsRow.Statement (.skp x) :=
  ⟨⟨"SKP", 0xF0FF, 0xE09E⟩, by decide, rfl, formatX_selected _ _ _ rfl⟩

theorem EncodesIntoItsRow.sknp (x : Reg) : EncodesIntoItsRow.Statement (.sknp x) :=
  ⟨⟨"SKNP", 0xF0FF, 0xE0A1⟩, by decide, rfl, formatX_selected _ _ _ rfl⟩

theorem EncodesIntoItsRow.ldK (x : Reg) : EncodesIntoItsRow.Statement (.ldK x) :=
  ⟨⟨"LD_K", 0xF0FF, 0xF00A⟩, by decide, rfl, formatX_selected _ _ _ rfl⟩

theorem EncodesIntoItsRow.ldDt (x : Reg) : EncodesIntoItsRow.Statement (.ldDt x) :=
  ⟨⟨"LD_DT", 0xF0FF, 0xF015⟩, by decide, rfl, formatX_selected _ _ _ rfl⟩

theorem EncodesIntoItsRow.ldSt (x : Reg) : EncodesIntoItsRow.Statement (.ldSt x) :=
  ⟨⟨"LD_ST", 0xF0FF, 0xF018⟩, by decide, rfl, formatX_selected _ _ _ rfl⟩

theorem EncodesIntoItsRow.addI (x : Reg) : EncodesIntoItsRow.Statement (.addI x) :=
  ⟨⟨"ADD_I", 0xF0FF, 0xF01E⟩, by decide, rfl, formatX_selected _ _ _ rfl⟩

theorem EncodesIntoItsRow.ldF (x : Reg) : EncodesIntoItsRow.Statement (.ldF x) :=
  ⟨⟨"LD_F", 0xF0FF, 0xF029⟩, by decide, rfl, formatX_selected _ _ _ rfl⟩

theorem EncodesIntoItsRow.ldB (x : Reg) : EncodesIntoItsRow.Statement (.ldB x) :=
  ⟨⟨"LD_B", 0xF0FF, 0xF033⟩, by decide, rfl, formatX_selected _ _ _ rfl⟩

theorem EncodesIntoItsRow.stRegs (x : Reg) : EncodesIntoItsRow.Statement (.stRegs x) :=
  ⟨⟨"ST_REGS", 0xF0FF, 0xF055⟩, by decide, rfl, formatX_selected _ _ _ rfl⟩

theorem EncodesIntoItsRow.ldRegs (x : Reg) : EncodesIntoItsRow.Statement (.ldRegs x) :=
  ⟨⟨"LD_REGS", 0xF0FF, 0xF065⟩, by decide, rfl, formatX_selected _ _ _ rfl⟩

theorem EncodesIntoItsRow.ldReg (x : Reg) (y : Reg) : EncodesIntoItsRow.Statement (.ldReg x y) :=
  ⟨⟨"LD_REG", 0xF00F, 0x8000⟩, by decide, rfl, formatXY_selected _ _ _ _ rfl⟩

theorem EncodesIntoItsRow.ldVxDt (x : Reg) : EncodesIntoItsRow.Statement (.ldVxDt x) :=
  ⟨⟨"LD_VX_DT", 0xF0FF, 0xF007⟩, by decide, rfl, formatX_selected _ _ _ rfl⟩

end Sys2Proof.Laws
end

