-- ==== Sys2Proof/Laws/Step.lean ====
section
/-! SUPPORT. What one step can do, said once: the three cases of `cycle` (fetch fails, the word is
unrecognized, an instruction runs), its two uses `stepWith` and `step`, and `exec` beside `execWith`
(spec/40_fetch_decode_execute.md R70). -/

namespace Sys2Proof.Machine

/-- `exec` is `execWith` at this machine's configuration, but for the random instruction. -/
theorem execWith_machine {i : Instr} (h : ∀ x kk, i ≠ .rnd x kk) (rnd : Byte) (s : State) :
    execWith Config.machine rnd i s = exec i s := by
  cases i <;> first | rfl | exact absurd rfl (h _ _)

/-- The random instruction is the one with the free byte as its input, and the counter moved on. -/
theorem exec_rnd (x : Reg) (kk : Byte) (s : State) :
    exec (.rnd x kk) s = .next (s.masked (randomByte s.draws) x kk).nextDraw := rfl

theorem execWith_rnd (c : Config) (rnd : Byte) (x : Reg) (kk : Byte) (s : State) :
    execWith c rnd (.rnd x kk) s = .next (s.masked rnd x kk) := rfl

/-! ### Fetch, decode, run -/

theorem cycle_of_error {c : Config} {run : Instr → State → Result} {s : State} {f : Fault}
    (h : fetch c s = .error f) : cycle c run s = (s, .fatal f) := by
  unfold cycle
  rw [h]

theorem cycle_of_none {c : Config} {run : Instr → State → Result} {s : State} {op : Word}
    (h : fetch c s = .ok op) (hd : decodeWord c.ext8xy0Fx07 op = none) :
    cycle c run s = (s, .unrecognized op) := by
  unfold cycle
  rw [h]
  simp only [hd]

theorem cycle_of_some {c : Config} {run : Instr → State → Result} {s : State} {op : Word} {i : Instr}
    (h : fetch c s = .ok op) (hd : decodeWord c.ext8xy0Fx07 op = some i) :
    cycle c run s = answerOf s (run i s) := by
  unfold cycle
  rw [h]
  simp only [hd]

/-! ### The event `STEP(rnd)` -/

theorem stepWith_of_error {c : Config} {rnd : Byte} {s : State} {f : Fault} (h : fetch c s = .error f) :
    stepWith c rnd s = (s, .fatal f) := cycle_of_error h

theorem stepWith_of_none {c : Config} {rnd : Byte} {s : State} {op : Word} (h : fetch c s = .ok op)
    (hd : decodeWord c.ext8xy0Fx07 op = none) : stepWith c rnd s = (s, .unrecognized op) :=
  cycle_of_none h hd

theorem stepWith_of_some {c : Config} {rnd : Byte} {s : State} {op : Word} {i : Instr}
    (h : fetch c s = .ok op) (hd : decodeWord c.ext8xy0Fx07 op = some i) :
    stepWith c rnd s = answerOf s (execWith c rnd i s) := cycle_of_some h hd

/-- The three things a step can do. -/
theorem stepWith_cases (c : Config) (rnd : Byte) (s : State) :
    (∃ f, fetch c s = .error f ∧ stepWith c rnd s = (s, .fatal f)) ∨
    (∃ op, fetch c s = .ok op ∧ decodeWord c.ext8xy0Fx07 op = none ∧
      stepWith c rnd s = (s, .unrecognized op)) ∨
    (∃ op i, fetch c s = .ok op ∧ decodeWord c.ext8xy0Fx07 op = some i ∧
      stepWith c rnd s = answerOf s (execWith c rnd i s)) := by
  cases hf : fetch c s with
  | error f => exact .inl ⟨f, rfl, stepWith_of_error hf⟩
  | ok op =>
    cases hd : decodeWord c.ext8xy0Fx07 op with
    | none => exact .inr (.inl ⟨op, rfl, hd, stepWith_of_none hf hd⟩)
    | some i => exact .inr (.inr ⟨op, i, rfl, hd, stepWith_of_some hf hd⟩)

/-- A state that fetches `i` runs it. -/
theorem stepWith_of_fetches {c : Config} {s : State} {i : Instr} (h : Fetches c s i) (rnd : Byte) :
    stepWith c rnd s = answerOf s (execWith c rnd i s) :=
  stepWith_of_some (fetch_ok h.1) h.2

/-! ### The step of the host's interface -/

@[simp] theorem outcomeOf_answerOf (s : State) (r : Result) : outcomeOf (answerOf s r) = r := by
  cases r <;> rfl

@[simp] theorem answerOf_next (s t : State) : answerOf s (.next t) = (t, .ok) := rfl
@[simp] theorem answerOf_fault (s : State) (f : Fault) : answerOf s (.fault f) = (s, .fatal f) := rfl

theorem step_of_error {s : State} {f : Fault} (h : fetch Config.machine s = .error f) : step s = .fault f := by
  unfold step
  rw [cycle_of_error h]
  rfl

theorem step_of_none {s : State} {op : Word} (h : fetch Config.machine s = .ok op)
    (hd : decodeWord Config.machine.ext8xy0Fx07 op = none) : step s = .next s := by
  unfold step
  rw [cycle_of_none h hd]
  rfl

theorem step_of_some {s : State} {op : Word} {i : Instr} (h : fetch Config.machine s = .ok op)
    (hd : decodeWord Config.machine.ext8xy0Fx07 op = some i) : step s = exec i s := by
  unfold step
  rw [cycle_of_some h hd, outcomeOf_answerOf]

/-- A state that fetches `i` runs it. -/
theorem step_of_fetches {s : State} {i : Instr} (h : Fetches Config.machine s i) : step s = exec i s :=
  step_of_some (fetch_ok h.1) h.2

/-! ### The counter of free values (R22 (a); log entry 3) -/

/-- Only the random instruction moves the counter, and only where nothing supplies its input. -/
theorem exec_draws {i : Instr} {s t : State} (h : exec i s = .next t) :
    t.draws = s.draws + (match i with | .rnd _ _ => 1 | _ => 0) := by
  cases i
  case ret =>
    simp only [exec, execRet, raise] at h
    split at h
    · cases h
    · rename_i hu
      obtain ⟨_, _, _, rfl⟩ := State.pop_eq_some hu
      cases h
      rfl
  case call =>
    simp only [exec, execCall, raise] at h
    split at h
    · cases h
    · rename_i hu
      obtain ⟨_, _, rfl⟩ := State.push_eq_some hu
      cases h
      rfl
  case ldK =>
    simp only [exec, execLdK] at h
    split at h <;> cases h <;> rfl
  case skp | sknp =>
    obtain ⟨_, _, e⟩ := withKey_next h
    cases e
    simp
  case ldB | stRegs | ldRegs =>
    obtain ⟨_, e⟩ := inRange_next h
    cases e
    simp
  case drw =>
    simp only [exec, execDrw, execDrwWith] at h
    split at h
    · cases h
      rfl
    · obtain ⟨_, e⟩ := inRange_next h
      cases e
      rfl
  all_goals
    cases h
    first | rfl | simp

end Sys2Proof.Machine
end

