-- ==== Sys2Proof/Tests/Slice0.lean ====
section
/-! SUPPORT. Tests of the model, and witnesses for the hypotheses of the statements.

Expected results come from outside the model: words are written out digit by digit from
spec/30_encoding.md R55 and R57, and results are those of the vectors of spec/95_test_vectors.md, named
in each test's comment (T control transfer, A arithmetic, M index and memory, G display, K keypad and
timers, X unrecognized words, E events). Each test runs one step or one event. -/

namespace Sys2Proof.Tests

open Sys2Proof Sys2Proof.Machine

/-! ## Helpers -/

/-- The configuration of the vectors: `FONT_BASE = 0x000`, the default font, the switch off. -/
abbrev conf : Config := Config.vectors false

/-- The reset state with registers set. -/
def regs (l : List (Reg × Byte)) : State := l.foldl (fun s p => s.writeV p.1 p.2) State.reset

/-- A state with bytes of memory set, under the vectors' configuration. -/
def poke (s : State) (a : Nat) (bs : List Byte) : State :=
  { s with mem := Memory.writeBytes conf s.mem a bs }

/-- The keys of a list down, all others up. -/
def keysDown (ks : List Key) : Vector Bool 16 := Vector.ofFn fun k => ks.contains k

/-- The pixels of a list lit, all others unlit. -/
def lit (ps : List (Col × Row)) : Framebuffer :=
  ps.foldl (fun fb p => fb.setPixel p.1 p.2 true) Framebuffer.blank

/-- The state and the outcome after one step with the word at `pc`. -/
def run (s : State) (op : Word) (rnd : Byte := 0) : State × Answer :=
  stepWith conf rnd (poke s s.pc.toNat [highByte op, lowByte op])

/-- A byte of memory under the vectors' configuration. -/
def byteAt (s : State) (a : Nat) : Byte := Memory.read conf s.mem a

/-- This machine's reset state with a word at its `pc`. -/
def holding (op : Word) : State := placeWord State.reset op

/-! ## Well-formedness: the one check refuses the two instructions of the extension -/

theorem test_wellFormed_refuses_copy : (Instr.ldReg 1 2).wellFormed false = false := by decide
theorem test_wellFormed_refuses_readTimer : (Instr.ldVxDt 1).wellFormed false = false := by decide
theorem test_wellFormed_accepts :
    (Instr.ldReg 1 2).wellFormed true = true ∧ (Instr.drw 15 15 0).wellFormed false = true := by decide

/-! ## Decoding: one word of every constructor, written out from R55 and R57 -/

theorem test_decode_control :
    decodeWord false 0x00EE = some .ret ∧ decodeWord false 0x1ABC = some (.jp 0xABC) ∧
    decodeWord false 0x220A = some (.call 0x20A) ∧ decodeWord false 0x332A = some (.seImm 3 0x2A) ∧
    decodeWord false 0x432A = some (.sneImm 3 0x2A) ∧ decodeWord false 0x5120 = some (.seReg 1 2) ∧
    decodeWord false 0x9120 = some (.sneReg 1 2) ∧ decodeWord false 0xBFFF = some (.jpV0 0xFFF) := by
  decide

theorem test_decode_alu :
    decodeWord false 0x6AFF = some (.ldImm 0xA 0xFF) ∧ decodeWord false 0x7202 = some (.addImm 2 0x02) ∧
    decodeWord false 0x8121 = some (.or 1 2) ∧ decodeWord false 0x8122 = some (.and 1 2) ∧
    decodeWord false 0x8123 = some (.xor 1 2) ∧ decodeWord false 0x8F14 = some (.addReg 15 1) ∧
    decodeWord false 0x8125 = some (.sub 1 2) ∧ decodeWord false 0x81F6 = some (.shr 1 15) ∧
    decodeWord false 0x8127 = some (.subn 1 2) ∧ decodeWord false 0x812E = some (.shl 1 2) ∧
    decodeWord false 0xC30F = some (.rnd 3 0x0F) := by decide

theorem test_decode_index_memory :
    decodeWord false 0xA2F0 = some (.ldI 0x2F0) ∧ decodeWord false 0xF21E = some (.addI 2) ∧
    decodeWord false 0xF429 = some (.ldF 4) ∧ decodeWord false 0xF033 = some (.ldB 0) ∧
    decodeWord false 0xF255 = some (.stRegs 2) ∧ decodeWord false 0xFF65 = some (.ldRegs 15) := by decide

theorem test_decode_display :
    decodeWord false 0x00E0 = some .cls ∧ decodeWord false 0xD125 = some (.drw 1 2 5) := by decide

theorem test_decode_keypad_timers :
    decodeWord false 0xE29E = some (.skp 2) ∧ decodeWord false 0xE2A1 = some (.sknp 2) ∧
    decodeWord false 0xF10A = some (.ldK 1) ∧ decodeWord false 0xF015 = some (.ldDt 0) ∧
    decodeWord false 0xF518 = some (.ldSt 5) := by decide

/-- X9, X17, X21, X22. -/
theorem test_decode_extension :
    decodeWord false 0x8120 = none ∧ decodeWord false 0xF107 = none ∧
    decodeWord true 0x8120 = some (.ldReg 1 2) ∧ decodeWord true 0xF107 = some (.ldVxDt 1) := by decide

/-- X1 to X8, X10, X11. -/
theorem test_decode_unrecognized_low :
    (([0x0000, 0x00E1, 0x00EF, 0x00FE, 0x0123, 0x0FFF, 0x5121, 0x512F, 0x8128, 0x812F] : List Word).all fun op =>
      (decodeWord true op).isNone) = true := by decide

/-- X12 to X16, X18 to X20. -/
theorem test_decode_unrecognized_high :
    (([0x9125, 0xE000, 0xE19F, 0xE1A0, 0xF100, 0xF156, 0xF166, 0xFFFF] : List Word).all fun op =>
      (decodeWord true op).isNone) = true := by decide

/-- R50, R59: two bytes, the first in bits 15:8, the rest left over; one byte alone is no instruction. -/
theorem test_decodeBytes :
    decodeBytes false [0x12, 0x34, 0x56] = .instr (.jp 0x234) [0x56] ∧
    decodeBytes false [0xFF, 0xFF] = .unrecognized 0xFFFF ∧
    decodeBytes false [0x12] = .truncated [0x12] := by decide

theorem test_decodeTableWord :
    decodeTableWord 16 0x6A55 = some (.ldImm 10 0x55) ∧ decodeTableWord 16 0x8120 = none := by decide

/-! ## Steps: control transfer -/

/-- T1. -/
theorem test_ret_empty : (run State.reset 0x00EE).2 = .fatal (.stackUnderflow 0x200) := by decide
/-- T3. -/
theorem test_ret :
    let s := { State.reset with pc := 0x300, sp := 1, stack := State.reset.stack.set 0 0x202 }
    (run s 0x00EE).1.pc = 0x202 ∧ (run s 0x00EE).1.sp = 0 := by decide
/-- T6, T9. -/
theorem test_jp : (run State.reset 0x1FFF).1.pc = 0xFFF ∧ (run State.reset 0x1200).1.pc = 0x200 := by decide
/-- T5. -/
theorem test_call_last :
    let t := (run { State.reset with sp := 15 } 0x2300).1
    t.pc = 0x300 ∧ t.sp = 16 ∧ t.stack[15] = 0x202 := by decide
/-- T4. -/
theorem test_call_full :
    (run { State.reset with sp := 16 } 0x2300).2 = .fatal (.stackOverflow 0x200) := by decide
/-- T10, T11. -/
theorem test_seImm : (run (regs [(3, 0x42)]) 0x3342).1.pc = 0x204 ∧
    (run (regs [(3, 0x41)]) 0x3342).1.pc = 0x202 := by decide
/-- T12, T13. -/
theorem test_sneImm : (run (regs [(3, 0x42)]) 0x4342).1.pc = 0x202 ∧
    (run (regs [(3, 0x41)]) 0x4342).1.pc = 0x204 := by decide
/-- T14, T15. -/
theorem test_seReg : (run (regs [(1, 7), (2, 7)]) 0x5120).1.pc = 0x204 ∧
    (run (regs [(1, 7), (2, 8)]) 0x5120).1.pc = 0x202 := by decide
/-- T17, T18. -/
theorem test_sneReg : (run (regs [(1, 7), (2, 8)]) 0x9120).1.pc = 0x204 ∧
    (run (regs [(1, 7), (2, 7)]) 0x9120).1.pc = 0x202 := by decide
/-- T21, and T22 after it. -/
theorem test_jpV0 : (run (regs [(0, 0xFF)]) 0xBFFF).1.pc = 0x10FE ∧
    (stepWith conf 0 (run (regs [(0, 0xFF)]) 0xBFFF).1).2 = .fatal (.addressOutOfRange 0x10FE) := by decide
/-- T7, T8: the fetch at the end of memory. -/
theorem test_fetch_end :
    (stepWith conf 0 { State.reset with pc := 0xFFF }).2 = .fatal (.addressOutOfRange 0xFFF) ∧
    (stepWith conf 0 { State.reset with pc := 0xFFE }).2 = .unrecognized 0x0000 := by decide
/-- T27: an odd `pc`. -/
theorem test_fetch_odd : (run { State.reset with pc := 0x301 } 0x6A55).1.readV 10 = 0x55 := by decide

/-! ## Steps: registers and arithmetic -/

/-- A1, A2. -/
theorem test_ldImm : (run State.reset 0x65FF).1.readV 5 = 0xFF ∧ (run State.reset 0x6F7B).1.readV 15 = 0x7B := by
  decide
/-- A3, A5. -/
theorem test_addImm :
    let t := (run (regs [(1, 1), (15, 1)]) 0x71FF).1
    t.readV 1 = 0 ∧ t.readV 15 = 1 ∧ (run (regs [(15, 0xFF)]) 0x7F01).1.readV 15 = 0 := by decide
/-- A6, A10. -/
theorem test_or :
    let t := (run (regs [(1, 0xF0), (2, 0x0F), (15, 1)]) 0x8121).1
    t.readV 1 = 0xFF ∧ t.readV 15 = 1 ∧ (run (regs [(15, 1), (2, 0x80)]) 0x8F21).1.readV 15 = 0x81 := by decide
/-- A7. -/
theorem test_and : (run (regs [(1, 0xF0), (2, 0x3C)]) 0x8122).1.readV 1 = 0x30 := by decide
/-- A8. -/
theorem test_xor : (run (regs [(1, 0xF0), (2, 0x3C)]) 0x8123).1.readV 1 = 0xCC := by decide
/-- A11, A12. -/
theorem test_addReg :
    let t := (run (regs [(1, 0xFF), (2, 1)]) 0x8124).1
    let u := (run (regs [(1, 1), (2, 1), (15, 1)]) 0x8124).1
    t.readV 1 = 0 ∧ t.readV 15 = 1 ∧ u.readV 1 = 2 ∧ u.readV 15 = 0 := by decide
/-- A14, A16: `VF` as an operand. -/
theorem test_addReg_flag :
    (run (regs [(15, 0xFF), (1, 1)]) 0x8F14).1.readV 15 = 1 ∧
    (run (regs [(1, 0xFF), (15, 1)]) 0x81F4).1.readV 1 = 0 := by decide
/-- A19, A20. -/
theorem test_sub :
    let t := (run (regs [(1, 3), (2, 5), (15, 1)]) 0x8125).1
    let u := (run (regs [(1, 7), (2, 7)]) 0x8125).1
    t.readV 1 = 0xFE ∧ t.readV 15 = 0 ∧ u.readV 1 = 0 ∧ u.readV 15 = 1 := by decide
/-- A23. -/
theorem test_sub_flag : (run (regs [(15, 3), (1, 5)]) 0x8F15).1.readV 15 = 0 := by decide
/-- A27, A29. -/
theorem test_shr :
    let t := (run (regs [(1, 4), (2, 0xFF), (15, 1)]) 0x8126).1
    let u := (run (regs [(1, 0xFF)]) 0x8106).1
    t.readV 1 = 2 ∧ t.readV 2 = 0xFF ∧ t.readV 15 = 0 ∧ u.readV 1 = 0x7F ∧ u.readV 15 = 1 := by decide
/-- A32, A33. -/
theorem test_subn :
    let t := (run (regs [(1, 3), (2, 5)]) 0x8127).1
    let u := (run (regs [(1, 5), (2, 3), (15, 1)]) 0x8127).1
    t.readV 1 = 2 ∧ t.readV 15 = 1 ∧ u.readV 1 = 0xFE ∧ u.readV 15 = 0 := by decide
/-- A37, A38. -/
theorem test_shl :
    let t := (run (regs [(1, 0x41), (2, 0xFF), (15, 1)]) 0x812E).1
    let u := (run (regs [(1, 0xFF)]) 0x810E).1
    t.readV 1 = 0x82 ∧ t.readV 15 = 0 ∧ u.readV 1 = 0xFE ∧ u.readV 15 = 1 := by decide
/-- A41, A44. -/
theorem test_rnd : (run State.reset 0xC10F 0xA7).1.readV 1 = 0x07 ∧
    (run (regs [(15, 0xFF)]) 0xCF0F 0x3C).1.readV 15 = 0x0C := by decide

/-! ## Steps: index register and memory -/

/-- M1. -/
theorem test_ldI : (run { State.reset with i := 0xFFFF } 0xA2F0).1.i = 0x2F0 := by decide
/-- M3, M5. -/
theorem test_addI :
    (run { regs [(1, 1)] with i := 0xFFF } 0xF11E).1.i = 0x1000 ∧
    (run { regs [(1, 0xFF)] with i := 0xFF80 } 0xF11E).1.i = 0x7F := by decide
/-- M7, M8. -/
theorem test_ldF : (run (regs [(4, 0x1A)]) 0xF429).1.i = 0x32 ∧ (run (regs [(4, 0xFF)]) 0xF429).1.i = 0x4B := by
  decide
/-- M9. -/
theorem test_ldB :
    let t := (run { regs [(0, 0xFE)] with i := 0x300 } 0xF033).1
    byteAt t 0x300 = 2 ∧ byteAt t 0x301 = 5 ∧ byteAt t 0x302 = 4 := by decide
/-- M15: the address is not wrapped. -/
theorem test_ldB_range :
    (run { regs [(0, 9)] with i := 0xFFFF } 0xF033).2 = .fatal (.addressOutOfRange 0x10001) := by decide
/-- M16. -/
theorem test_stRegs :
    let t := (run { regs [(0, 0x11), (1, 0x22), (2, 0x33), (3, 0x44)] with i := 0x400 } 0xF255).1
    byteAt t 0x400 = 0x11 ∧ byteAt t 0x402 = 0x33 ∧ byteAt t 0x403 = 0 ∧ t.i = 0x400 := by decide
/-- M18: no byte written, not even at `0xFFF`. -/
theorem test_stRegs_range :
    let t := run { regs [(0, 0x5A), (1, 0xA5)] with i := 0xFFF } 0xF155
    t.2 = .fatal (.addressOutOfRange 0x1000) ∧ byteAt t.1 0xFFF = 0 := by decide
/-- M23. -/
theorem test_ldRegs :
    let t := (run (poke { regs [(3, 0x77)] with i := 0x300 } 0x300 [2, 5, 4, 0x99]) 0xF265).1
    t.readV 0 = 2 ∧ t.readV 2 = 4 ∧ t.readV 3 = 0x77 ∧ t.i = 0x300 := by decide
/-- M28: glyph 0 of the default font. -/
theorem test_ldRegs_font :
    let t := (run State.reset 0xF465).1
    t.readV 0 = 0xF0 ∧ t.readV 1 = 0x90 ∧ t.readV 4 = 0xF0 := by decide

/-! ## Steps: display -/

/-- G17. -/
theorem test_cls :
    let t := (run { regs [(15, 1)] with fb := lit [(0, 0), (63, 31)] } 0x00E0).1
    t.fb = Framebuffer.blank ∧ t.readV 15 = 1 := by decide
/-- G9: partial overlap. -/
theorem test_drw_collision :
    let t := (run (poke { regs [(0, 1)] with i := 0x300, fb := lit [(0, 0), (1, 0)] } 0x300 [0xC0]) 0xD011).1
    t.fb = lit [(0, 0), (2, 0)] ∧ t.readV 15 = 1 := by decide
/-- G4, G5: per-pixel wrap on both axes. -/
theorem test_drw_wrap :
    (run (poke { regs [(0, 0x3F), (1, 5)] with i := 0x300 } 0x300 [0xFF]) 0xD011).1.fb =
      lit [(0, 5), (1, 5), (2, 5), (3, 5), (4, 5), (5, 5), (6, 5), (63, 5)] ∧
    (run (poke { regs [(1, 0x1F)] with i := 0x300 } 0x300 [0x80, 0x80]) 0xD012).1.fb =
      lit [(0, 0), (0, 31)] := by decide

/-! ## Steps: keypad and timers -/

/-- K1, K2. -/
theorem test_skp : (run { regs [(1, 7)] with keys := keysDown [7] } 0xE19E).1.pc = 0x204 ∧
    (run { regs [(1, 7)] with keys := keysDown [8] } 0xE19E).1.pc = 0x202 := by decide
/-- K6: the index is not masked. -/
theorem test_skp_range : (run { regs [(1, 0x10)] with keys := keysDown [0] } 0xE19E).2 =
    .fatal (.keyIndexOutOfRange 0x10) := by decide
/-- K3, K4. -/
theorem test_sknp : (run { regs [(1, 7)] with keys := keysDown [7] } 0xE1A1).1.pc = 0x202 ∧
    (run (regs [(1, 7)]) 0xE1A1).1.pc = 0x204 := by decide
/-- K9. -/
theorem test_ldK :
    let t := (run { regs [(1, 0x33)] with keys := keysDown [7, 10] } 0xF10A).1
    t.readV 1 = 7 ∧ t.pc = 0x202 := by decide
/-- K8. -/
theorem test_ldK_waits :
    let t := run (regs [(1, 0x33)]) 0xF10A
    t.2 = .ok ∧ t.1.readV 1 = 0x33 ∧ t.1.pc = 0x200 := by decide
/-- K12, K14. -/
theorem test_ldDt : (run (regs [(1, 5)]) 0xF115).1.dt = 5 ∧
    (run { State.reset with dt := 9 } 0xF115).1.dt = 0 := by decide
/-- K13. -/
theorem test_ldSt : (run (regs [(1, 0xFF)]) 0xF118).1.st = 0xFF := by decide

/-! ## Steps: the extension, and an unrecognized word -/

/-- X21. -/
theorem test_ldReg : (stepWith (Config.vectors true) 0 (poke (regs [(2, 0x5A)]) 0x200 [0x81, 0x20])).1.readV 1 = 0x5A := by
  decide
/-- X22. -/
theorem test_ldVxDt :
    (stepWith (Config.vectors true) 0 (poke { State.reset with dt := 44 } 0x200 [0xF1, 0x07])).1.readV 1 = 44 := by
  decide
/-- X9. -/
theorem test_unrecognized :
    let t := run (regs [(1, 1), (2, 1)]) 0x8120
    t.2 = .unrecognized 0x8120 ∧ t.1.pc = 0x200 := by decide

/-! ## Events -/

/-- E2, E3. -/
theorem test_tick :
    let t := (event conf .tick { State.reset with dt := 1, st := 255 }).1
    t.dt = 0 ∧ t.st = 254 ∧ (event conf .tick State.reset).1.dt = 0 := by decide
/-- E6. -/
theorem test_keys :
    let t := (event conf (.keys (keysDown [7, 10])) { State.reset with keys := keysDown [3] }).1
    t.keyDown 3 = false ∧ t.keyDown 7 = true ∧ t.keyDown 10 = true := by decide
/-- E10. -/
theorem test_load :
    let t := event conf (.load [0x12, 0x00]) (poke { regs [(3, 9)] with pc := 0x300 } 0x202 [0x77])
    t.2 = .loaded ∧ byteAt t.1 0x200 = 0x12 ∧ byteAt t.1 0x202 = 0x77 ∧ t.1.pc = 0x300 := by decide
/-- E11, E12. -/
theorem test_reset :
    let t := (event conf .reset (poke { regs [(3, 9)] with pc := 0x300 } 0x200 [0x77])).1
    byteAt t 0x200 = 0 ∧ t.readV 3 = 0 ∧ (stepWith conf 0 t).2 = .unrecognized 0x0000 := by decide
/-- E13. -/
theorem test_sound : State.reset.soundOn = false ∧ ({ State.reset with st := 1 } : State).soundOn = true := by decide
/-- The host's way in: a table word runs as the first instruction after reset (log entry 10). -/
theorem test_withFetchWord :
    ∃ t, step (State.reset.withFetchWord 16 0x6A55) = .next t ∧ t.readV 10 = 0x55 := ⟨_, rfl, by decide⟩

/-! ## Witnesses: concrete states and operands that meet the hypotheses of the statements

Each is named after its statement, with one part for each of its clauses, at the boundary values of the
clause's range. -/

/-- The reset state, but for `pc`, meets the invariant. -/
theorem inv_at (c : Config) {p : Word} (h : p.toNat ≤ 0x10FE) : State.Inv c { State.reset with pc := p } :=
  ⟨Memory.wf_nil c, h, fun _ hk => absurd hk (Nat.not_lt_zero _)⟩

theorem witness_EveryStepKeepsInvariant :
    State.Inv Config.machine (holding 0xBFFF) ∧ ∃ t, step (holding 0xBFFF) = .next t ∧ t.pc = 0xFFF :=
  ⟨⟨Memory.wf_writeBytes _ (Memory.wf_nil _) (by decide), by decide, fun _ hk => absurd hk (Nat.not_lt_zero _)⟩,
    _, rfl, by decide⟩

theorem witness_EveryEventKeepsInvariant :
    State.Inv conf { State.reset with pc := 0x10FE } ∧ State.Inv conf { State.reset with pc := 0x200 } :=
  ⟨inv_at conf (by decide), inv_at conf (by decide)⟩

theorem witness_LoadCopiesVerbatimOrRejects :
    (List.replicate 3585 (0xAB : Byte)).length > 3584 ∧ (List.replicate 3584 (0xAB : Byte)).length ≤ 3584 ∧
    3583 < (List.replicate 3584 (0xAB : Byte)).length ∧ ([] : List Byte).length ≤ 3584 ∧
    (0x1FF < 0x200 ∨ 0x200 + 1 ≤ 0x1FF) ∧ (0x201 < 0x200 ∨ 0x200 + [(0xAB : Byte)].length ≤ 0x201) := by
  simp only [List.length_replicate]
  decide

theorem witness_DecodeOfEncodeIsTheInstruction :
    (Instr.drw 15 15 0).wellFormed false = true ∧ (Instr.ldReg 0 15).wellFormed true = true := by decide

theorem witness_EncodeOfDecodeIsTheWord :
    decodeWord false 0x81F6 = some (.shr 1 15) ∧ decodeWord true 0x80F0 = some (.ldReg 0 15) := by decide

theorem witness_DecodeFollowsTheOpcodeMap :
    (⟨"JP", 0xF000, 0x1000⟩ : OpcodeRow) ∈ rowsOf false ∧
    (⟨"JP", 0xF000, 0x1000⟩ : OpcodeRow).selects 0x1FFF = true ∧ decodeWord false 0x1FFF = some (.jp 0xFFF) := by
  decide

theorem witness_FetchIsBigEndianAndBounded :
    ({ State.reset with pc := 0xFFF } : State).pc.toNat + 1 > 0xFFF ∧
    ({ State.reset with pc := 0xFFE } : State).pc.toNat + 1 ≤ 0xFFF := by decide

theorem witness_StepRunsTheDecodedInstruction :
    (holding 0x6A55).pc.toNat + 1 ≤ 0xFFF ∧
    IsWordOf (256 * ((holding 0x6A55).readMem (holding 0x6A55).pc.toNat).toNat
      + ((holding 0x6A55).readMem ((holding 0x6A55).pc.toNat + 1)).toNat) (.ldImm 10 0x55) :=
  ⟨by decide, rfl⟩

theorem witness_PlacedWordIsRunNext :
    0xFFFF < 0x10000 ∧ decodeTableWord 16 0xFF65 = some (.ldRegs 15) ∧ decodeTableWord 16 0xFFFF = none := by decide

theorem witness_UnrecognizedOpcodeChangesNothing :
    fetch Config.machine (holding 0xFFFF) = .ok 0xFFFF ∧
    decodeWord Config.machine.ext8xy0Fx07 0xFFFF = none := ⟨rfl, by decide⟩

theorem witness_FatalOutcomeKeepsStateAndRepeats :
    (stepWith Config.machine 0 (holding 0x00EE)).2 = .fatal (.stackUnderflow 0x200) := by decide

/-- The seven cases, each at a boundary. -/
theorem witness_FatalCausesAreExactlyTheSpecs :
    ({ State.reset with pc := 0xFFF } : State).pc.toNat + 1 > 0xFFF ∧
    Fetches Config.machine (holding 0x00EE) .ret ∧ (holding 0x00EE).sp.val = 0 ∧
    Fetches Config.machine { holding 0x2300 with sp := 16 } (.call 0x300) ∧
    Fetches Config.machine ((holding 0xE19E).writeV 1 16) (.skp 1) ∧ (((holding 0xE19E).writeV 1 16).readV 1).toNat > 15 ∧
    Fetches Config.machine ((holding 0xE1A1).writeV 1 255) (.sknp 1) ∧
    Fetches Config.machine { holding 0xD011 with i := 0x1000 } (.drw 0 1 1) ∧ 0x1000 + 1 - 1 > 0xFFF ∧
    Fetches Config.machine { holding 0xF033 with i := 0xFFE } (.ldB 0) ∧ 0xFFE + 2 > 0xFFF ∧
    Fetches Config.machine { holding 0xFF55 with i := 0xFF1 } (.stRegs 15) ∧
    Fetches Config.machine { holding 0xFF65 with i := 0xFF1 } (.ldRegs 15) ∧ 0xFF1 + 15 > 0xFFF := by
  unfold Fetches
  decide

/-- States that differ in the counter alone; a random instruction that runs, and one that is not there. -/
theorem witness_DrawCounterIsOutsideTheSpecsState :
    State.reset.toSpecState = ({ State.reset with draws := 7 } : State).toSpecState ∧
    (∃ t, step (holding 0xC10F) = .next t ∧ t.draws = (holding 0xC10F).draws + 1) ∧
    (∃ x kk, Fetches Config.machine (holding 0xC10F) (.rnd x kk)) ∧
    (∃ t, step (holding 0x1200) = .next t) ∧
    ∀ x kk, ¬ Fetches Config.machine (holding 0x1200) (.rnd x kk) :=
  ⟨rfl, ⟨_, rfl, rfl⟩, ⟨1, 0x0F, by decide, rfl⟩, ⟨_, rfl⟩, fun _ _ h => by
    have h2 : some (Instr.jp 0x200) = some (Instr.rnd _ _) := h.2
    cases h2⟩

theorem witness_OnlyRandomDependsOnTheDraw : ∀ x kk, ¬ Fetches Config.machine (holding 0x1200) (.rnd x kk) :=
  fun _ _ h => by
    have h2 : some (Instr.jp 0x200) = some (Instr.rnd _ _) := h.2
    cases h2

theorem witness_EachPartHasOnlyItsWriters :
    (∃ t, exec (.addReg 15 1) State.reset = .next t) ∧ (∃ t, exec (.ldB 0) State.reset = .next t) ∧
    (∃ t, exec (.call 0x300) State.reset = .next t) ∧ ∃ t, exec (.skp 0) State.reset = .next t :=
  ⟨⟨_, rfl⟩, ⟨_, rfl⟩, ⟨_, rfl⟩, ⟨_, rfl⟩⟩

theorem witness_OnlySixInstructionsWriteTheFlag :
    (∃ t, exec (.drw 15 15 15) State.reset = .next t) ∧ (∃ t, exec (.ldRegs 14) State.reset = .next t) ∧
    (14 : Reg) ≠ regF ∧ ∃ t, exec .cls State.reset = .next t :=
  ⟨⟨_, rfl⟩, ⟨_, rfl⟩, by decide, ⟨_, rfl⟩⟩

theorem witness_ReturnPopsIntoPc :
    State.reset.sp.val = 0 ∧ ({ State.reset with sp := 1 } : State).sp.val = (0 : Fin 16).val + 1 ∧
    ({ State.reset with sp := 16 } : State).sp.val = (15 : Fin 16).val + 1 := by decide

theorem witness_CallPushesReturnAddress :
    ({ State.reset with sp := 16 } : State).sp.val = 16 ∧ State.reset.sp.val = (0 : Fin 16).val ∧
    ({ State.reset with sp := 15 } : State).sp.val = (15 : Fin 16).val ∧ (14 : Fin 16) ≠ 15 := by decide

theorem witness_CallThenReturnResumesAfterCall :
    ∃ t, exec (.call 0x300) { State.reset with sp := 15 } = .next t ∧ t.sp = 16 ∧
      (t.writeV 3 9).sp = t.sp ∧ ∀ k : Fin 16, k.val < t.sp.val → (t.writeV 3 9).stack[k] = t.stack[k] :=
  ⟨_, rfl, by decide, rfl, fun _ _ => rfl⟩

/-- The side conditions of `SetsRegister` and `SetsRegisterAndFlag`. -/
theorem witness_other_registers : (0 : Reg) ≠ regF ∧ (14 : Reg) ≠ regF ∧ (1 : Reg) ≠ 0 := by decide

theorem witness_BcdStoresThreeDigits :
    ({ State.reset with i := 0xFFE } : State).i.toNat + 2 > 0xFFF ∧
    ({ State.reset with i := 0xFFD } : State).i.toNat + 2 ≤ 0xFFF ∧
    0xFFC ≠ ({ State.reset with i := 0xFFD } : State).dataAddr 0 := by decide

theorem witness_BlockStoreIsInclusive :
    ({ State.reset with i := 0xFF1 } : State).i.toNat + (15 : Reg).val > 0xFFF ∧
    ({ State.reset with i := 0xFF0 } : State).i.toNat + (15 : Reg).val ≤ 0xFFF ∧
    (15 : Reg) ≤ 15 ∧ ∀ k : Reg, k ≤ 15 → 0xFEF ≠ ({ State.reset with i := 0xFF0 } : State).dataAddr k.val := by
  decide

theorem witness_BlockLoadIsInclusive :
    ({ State.reset with i := 0x1000 } : State).i.toNat + (0 : Reg).val > 0xFFF ∧
    ({ State.reset with i := 0xFFF } : State).i.toNat + (0 : Reg).val ≤ 0xFFF ∧
    (0 : Reg) ≤ 0 ∧ (0 : Reg) < 1 := by decide

theorem witness_StoredBytesAreFetchedNext :
    (∃ t, exec (.stRegs 1) { State.reset with i := 0x202 } = .next t) ∧ 1 ≤ (1 : Reg).val ∧
    ({ State.reset with i := 0x202 } : State).i = ({ State.reset with i := 0x202 } : State).pc + 2 :=
  ⟨⟨_, rfl⟩, by decide, by decide⟩

theorem witness_WriteChangesOneByte : Memory.wf conf [] ∧ 0xFFF ≤ 0xFFF ∧ 0xFFE ≠ 0xFFF :=
  ⟨Memory.wf_nil conf, by decide, by decide⟩

theorem witness_DrawBlendsEveryBitAtItsWrappedPixel :
    (2 : Height).val ≥ 1 ∧ ({ State.reset with i := 0xFFF } : State).i.toNat + (2 : Height).val - 1 > 0xFFF ∧
    ({ State.reset with i := 0xFFF } : State).i.toNat + (1 : Height).val - 1 ≤ 0xFFF ∧
    (0 : Height).val = 0 ∧ (63 : Col).val = (((regs [(0, 0xFF)]).readV 0).toNat + 0) % 64 ∧
    (0 : Row).val = (((regs [(1, 0x1F)]).readV 1).toNat + 1) % 32 ∧
    ∀ r c : Nat, r < (0 : Height).val → c < 8 →
      ¬ ((0 : Col).val = ((State.reset.readV 0).toNat + c) % 64 ∧ (0 : Row).val = ((State.reset.readV 1).toNat + r) % 32) :=
  ⟨by decide, by decide, by decide, by decide, by decide, by decide, fun _ _ h => absurd h (Nat.not_lt_zero _)⟩

/-- A sprite with a bit set, on a blank screen: the bytes at `0x200` are those of the word `0xFF00`. -/
theorem witness_DrawingTwiceRestoresTheScreen :
    (0 : Reg) ≠ regF ∧ (∃ t, exec (.drw 0 1 1) { holding 0xFF00 with i := 0x200 } = .next t) ∧
    (∀ px py, ({ holding 0xFF00 with i := 0x200 } : State).fb.pixel px py = false) ∧
    ∃ r c : Nat, r < (1 : Height).val ∧ c < 8 ∧
      (({ holding 0xFF00 with i := 0x200 } : State).readMem
        (({ holding 0xFF00 with i := 0x200 } : State).dataAddr r)).getLsbD c = true :=
  ⟨by decide, ⟨_, rfl⟩, Framebuffer.pixel_blank, 0, 7, by decide, by decide, by decide⟩

theorem witness_KeySkipsTestOneFlag :
    ((regs [(1, 16)]).readV 1).toNat > 15 ∧ ((regs [(1, 15)]).readV 1).toNat = (15 : Key).val := by decide

theorem witness_WaitForKeyTakesTheLowestKey :
    (({ State.reset with keys := keysDown [15] } : State).keyDown 15 = true ∧
      ∀ j : Key, j < 15 → ({ State.reset with keys := keysDown [15] } : State).keyDown j = false) ∧
    ∀ k : Key, State.reset.keyDown k = false := by decide

theorem witness_KeysEventLiftsTheWait :
    Fetches Config.machine (holding 0xF10A) (.ldK 1) ∧ Waiting Config.machine (holding 0xF10A) ∧
    (keysDown [7, 10])[(7 : Key)] = true ∧ ∀ j : Key, j < 7 → (keysDown [7, 10])[j] = false :=
  ⟨⟨by decide, rfl⟩, ⟨⟨1, by decide, rfl⟩, by decide⟩, by decide, by decide⟩

theorem witness_ExtensionIsOnlyUnderItsSwitch :
    (0x8FF0 : Word).toNat = 0x8000 + 0x100 * (15 : Reg).val + 0x10 * (15 : Reg).val ∧
    (0xFF07 : Word).toNat = 0xF007 + 0x100 * (15 : Reg).val := by decide

theorem witness_JumpToSelfEndsARun :
    Fetches Config.machine (holding 0x1200) (.jp 0x200) ∧ (0x200 : Addr12).toNat = (holding 0x1200).pc.toNat ∧
    Waiting Config.machine (holding 0xF10A) ∧ GoneWrong Config.machine (holding 0x00EE) ∧
    GoneWrong Config.machine (holding 0xFFFF) :=
  ⟨⟨by decide, rfl⟩, by decide, ⟨⟨1, by decide, rfl⟩, by decide⟩, ⟨0, .inl ⟨.stackUnderflow 0x200, by decide⟩⟩,
    ⟨0, .inr ⟨0xFFFF, by decide⟩⟩⟩

end Sys2Proof.Tests
end

/-! PROOFS. The optional extension: what the decoder answers on its two words under either setting of the
switch, the result of an instruction that writes one register, and the statement about both
(spec/00_scope.md R6; spec/30_encoding.md R57; spec/48_nonsource_extension.md R140, R141). -/

namespace Sys2Proof

/-! ### The groups of the decoder -/

/-- A word of group `8` is decoded by its low digit. -/
theorem decodeWord_of_fieldH_eight {op : Word} (h : fieldH op = 0x8) (ext : Bool) :
    decodeWord ext op = decode8 ext op := by
  unfold decodeWord
  rw [h]
  rfl

/-- A word of group `F` is decoded by its low byte. -/
theorem decodeWord_of_fieldH_fifteen {op : Word} (h : fieldH op = 0xF) (ext : Bool) :
    decodeWord ext op = decodeF ext op := by
  unfold decodeWord
  rw [h]
  rfl

/-! ### The two words of the extension -/

/-- `8xy0` is the register copy under the switch, and unrecognized without it (R57, R140). -/
theorem decodeWord_encode_ldReg (ext : Bool) (x y : Reg) :
    decodeWord ext (encode (.ldReg x y)) = if ext then some (.ldReg x y) else none := by
  show decodeWord ext (formatXYN 0x8 x y 0x0) = _
  rw [decodeWord_of_fieldH_eight (fieldH_formatXYN ..)]
  unfold decode8
  rw [fieldN_formatXYN, fieldX_formatXYN, fieldY_formatXYN]
  rfl

/-- `Fx07` is the read of the delay timer under the switch, and unrecognized without it (R57, R141). -/
theorem decodeWord_encode_ldVxDt (ext : Bool) (x : Reg) :
    decodeWord ext (encode (.ldVxDt x)) = if ext then some (.ldVxDt x) else none := by
  show decodeWord ext (formatXK 0xF x 0x07) = _
  rw [decodeWord_of_fieldH_fifteen (fieldH_formatXK ..)]
  unfold decodeF
  rw [fieldKK_formatXK, fieldX_formatXK]
  rfl

/-- The digits `8xy0` are the encoding of the register copy. -/
theorem eq_encode_ldReg {op : Word} {x y : Reg} (h : op.toNat = 0x8000 + 0x100 * x.val + 0x10 * y.val) :
    op = encode (.ldReg x y) :=
  BitVec.eq_of_toNat_eq (h.trans (toNat_formatXYN 0x8 x y 0x0).symm)

/-- The digits `Fx07` are the encoding of the read of the delay timer. -/
theorem eq_encode_ldVxDt {op : Word} {x : Reg} (h : op.toNat = 0xF007 + 0x100 * x.val) :
    op = encode (.ldVxDt x) := by
  have hw : (encode (.ldVxDt x)).toNat = 0xF000 + 0x100 * x.val + 7 := toNat_formatXK 0xF x 0x07
  exact BitVec.eq_of_toNat_eq (by omega)

namespace Machine

/-- `V[x] <- b` and on to the next instruction changes `V` and `pc` only. -/
theorem sameExcept_writeV_advance (s : State) (x : Reg) (b : Byte) :
    SameExcept [.v, .pc] s (s.writeV x b).advance := by
  apply SameExcept.of_fields <;> simp

/-- An instruction that answers `V[x] <- b; pc <- pc + 2` sets the register `x` to `b`. -/
theorem setsRegister_of_exec {i : Instr} {s : State} {x : Reg} {b : Byte}
    (h : exec i s = .next (s.writeV x b).advance) : SetsRegister i s x b.toNat :=
  ⟨_, h, congrArg BitVec.toNat (State.readV_writeV_same s x b),
    fun _ hr => State.readV_writeV_other s b hr, rfl, sameExcept_writeV_advance s x b⟩

/-- Settles O55: both words are encodings, which the decoder takes by the switch, and both meanings write
one register. -/
theorem extensionIsOnlyUnderItsSwitch : Obligations.ExtensionIsOnlyUnderItsSwitch := by
  intro x y s
  refine ⟨fun op h => ?copyWord, fun op h => ?timerWord, setsRegister_of_exec rfl, setsRegister_of_exec rfl⟩
  case copyWord =>
    rw [eq_encode_ldReg h]
    exact ⟨decodeWord_encode_ldReg true x y, decodeWord_encode_ldReg false x y⟩
  case timerWord =>
    rw [eq_encode_ldVxDt h]
    exact ⟨decodeWord_encode_ldVxDt true x, decodeWord_encode_ldVxDt false x⟩

end Machine
end Sys2Proof

/-! PROOFS. The state: the model's counter is outside every event, the invariant, who writes each part,
and reset (spec/10_state.md). -/

namespace Sys2Proof.Machine

/-! ### The model's counter (R22 (a); log entry 3)

One fact carries this part: every event commutes with replacing the counter. It says at once that no event
reads the counter and that none writes it. -/

/-- The same ten items beside another counter. -/
def State.withDraws (s : State) (d : Nat) : State := { s with draws := d }

@[simp] theorem State.withDraws_toSpecState (s : State) (d : Nat) :
    (s.withDraws d).toSpecState = s.toSpecState := rfl
@[simp] theorem State.withDraws_draws (s : State) (d : Nat) : (s.withDraws d).draws = d := rfl
@[simp] theorem State.withDraws_self (s : State) : s.withDraws s.draws = s := rfl

/-- States that agree on the ten items differ in the counter only. -/
theorem State.eq_withDraws {s t : State} (h : s.toSpecState = t.toSpecState) : t = s.withDraws t.draws := by
  unfold State.withDraws
  rw [h]

/-- An outcome with the counter of its next state, if it has one, replaced. -/
def Result.withDraws (d : Nat) : Result → Result
  | .next t => .next (t.withDraws d)
  | .fault f => .fault f
  | .refused r => .refused r

theorem Result.withDraws_eq_next {d : Nat} {r : Result} {t : State} (h : r.withDraws d = .next t) :
    ∃ u, r = .next u ∧ t = u.withDraws d := by
  cases r with
  | next u => cases h; exact ⟨u, rfl, rfl⟩
  | fault f => cases h
  | refused f => cases h

theorem Result.withDraws_eq_fault {d : Nat} {r : Result} {f : Fault} :
    r.withDraws d = .fault f ↔ r = .fault f := by
  cases r <;> simp [Result.withDraws]

/-! The shared operations commute with it. -/

theorem State.skipIf_withDraws (s : State) (d : Nat) (b : Bool) :
    (s.withDraws d).skipIf b = (s.skipIf b).withDraws d := by
  cases b <;> rfl

theorem State.push_withDraws (s : State) (d : Nat) (a : Word) :
    (s.withDraws d).push a = (s.push a).map (·.withDraws d) := by
  show (if _ : s.sp.val < stackDepth then _ else _) = _
  unfold State.push
  split <;> rfl

theorem State.pop_withDraws (s : State) (d : Nat) :
    (s.withDraws d).pop = s.pop.map fun p => (p.1, p.2.withDraws d) := by
  show (if _ : 0 < s.sp.val then _ else _) = _
  unfold State.pop
  split <;> rfl

theorem inRange_withDraws (hi d : Nat) (k : Result) :
    (inRange hi k).withDraws d = inRange hi (k.withDraws d) := by
  unfold inRange
  split <;> rfl

theorem withKey_skipIf_withDraws (s : State) (d : Nat) (x : Reg) (p : Key → Bool) :
    withKey (s.withDraws d) x (fun k => .next ((s.withDraws d).skipIf (p k))) =
      (withKey s x fun k => .next (s.skipIf (p k))).withDraws d := by
  show withKey s x _ = _
  unfold withKey
  split
  · rfl
  · exact congrArg Host.Outcome.next (State.skipIf_withDraws s d (p _))

/-- No instruction on a `STEP(rnd)` reads or writes the counter. -/
theorem execWith_withDraws (c : Config) (rnd : Byte) (i : Instr) (s : State) (d : Nat) :
    execWith c rnd i (s.withDraws d) = (execWith c rnd i s).withDraws d := by
  cases i
  case seImm | sneImm | seReg | sneReg => exact congrArg Host.Outcome.next (State.skipIf_withDraws s d _)
  case skp | sknp => exact withKey_skipIf_withDraws s d _ _
  case ldB | stRegs | ldRegs =>
    show _ = (inRange _ _).withDraws d
    rw [inRange_withDraws]
    rfl
  case ret =>
    show execRet _ = (execRet s).withDraws d
    unfold execRet
    rw [State.pop_withDraws]
    cases s.pop <;> rfl
  case call nnn =>
    show execCall nnn _ = (execCall nnn s).withDraws d
    unfold execCall
    rw [show (s.withDraws d).pc = s.pc from rfl, State.push_withDraws]
    cases s.push (s.pc + instrWidth) <;> rfl
  case ldK x =>
    show execLdK x _ = (execLdK x s).withDraws d
    unfold execLdK
    rw [show (s.withDraws d).firstKey = s.firstKey from rfl]
    cases s.firstKey <;> rfl
  case drw x y n =>
    show execDrwWith c x y n _ = (execDrwWith c x y n s).withDraws d
    unfold execDrwWith
    split
    · rfl
    · rw [inRange_withDraws]
      rfl
  all_goals rfl

theorem answerOf_withDraws (s : State) (d : Nat) (r : Result) :
    answerOf (s.withDraws d) (r.withDraws d) = ((answerOf s r).1.withDraws d, (answerOf s r).2) := by
  cases r <;> rfl

theorem stepWith_withDraws (c : Config) (rnd : Byte) (s : State) (d : Nat) :
    stepWith c rnd (s.withDraws d) = ((stepWith c rnd s).1.withDraws d, (stepWith c rnd s).2) := by
  have hfetch : fetch c (s.withDraws d) = fetch c s := rfl
  rcases stepWith_cases c rnd s with ⟨f, hf, h⟩ | ⟨op, hf, hd, h⟩ | ⟨op, i, hf, hd, h⟩
  · rw [h, stepWith_of_error (hfetch.trans hf)]
  · rw [h, stepWith_of_none (hfetch.trans hf) hd]
  · rw [h, stepWith_of_some (hfetch.trans hf) hd, execWith_withDraws, answerOf_withDraws]

/-- No event reads or writes the counter. -/
theorem event_withDraws (c : Config) (e : Event) (s : State) (d : Nat) :
    event c e (s.withDraws d) = ((event c e s).1.withDraws d, (event c e s).2) := by
  cases e with
  | load bytes =>
    show State.load c _ bytes = ((s.load c bytes).1.withDraws d, (s.load c bytes).2)
    unfold State.load
    split <;> rfl
  | step rnd => exact stepWith_withDraws c rnd s d
  | reset => rfl
  | tick => rfl
  | keys k => rfl

theorem event_draws (c : Config) (e : Event) (s : State) : (event c e s).1.draws = s.draws :=
  congrArg (·.1.draws) (event_withDraws c e s s.draws)

theorem execWith_withDraws_self (c : Config) (rnd : Byte) (i : Instr) (s : State) :
    (execWith c rnd i s).withDraws s.draws = execWith c rnd i s :=
  (execWith_withDraws c rnd i s s.draws).symm

/-! ### The host's step beside `STEP(rnd)` -/

/-- `exec` is the meaning on a `STEP` whose input is the free byte the counter selects, but for the counter. -/
theorem exec_eq_execWith (i : Instr) (s : State) :
    ∃ d, exec i s = (execWith Config.machine (randomByte s.draws) i s).withDraws d := by
  by_cases hi : ∃ x kk, i = .rnd x kk
  · obtain ⟨x, kk, rfl⟩ := hi
    exact ⟨s.draws + 1, rfl⟩
  · push Not at hi
    exact ⟨s.draws, by rw [execWith_withDraws_self, execWith_machine hi]⟩

/-- The host's step is `STEP` with that byte, but for the counter. -/
theorem step_eq_stepWith (s : State) :
    ∃ d, step s = (outcomeOf (stepWith Config.machine (randomByte s.draws) s)).withDraws d := by
  rcases stepWith_cases Config.machine (randomByte s.draws) s with
    ⟨f, hf, h⟩ | ⟨op, hf, hd, h⟩ | ⟨op, i, hf, hd, h⟩
  · exact ⟨s.draws, by rw [step_of_error hf, h]; rfl⟩
  · exact ⟨s.draws, by rw [step_of_none hf hd, h]; rfl⟩
  · obtain ⟨d, hi⟩ := exec_eq_execWith i s
    exact ⟨d, by rw [step_of_some hf hd, h, outcomeOf_answerOf, hi]⟩

theorem outcomeOf_eq_fault {p : State × Answer} {f : Fault} : outcomeOf p = .fault f ↔ p.2 = .fatal f := by
  obtain ⟨t, a⟩ := p
  cases a <;> simp [outcomeOf]

theorem outcomeOf_eq_next {p : State × Answer} {t : State} (h : outcomeOf p = .next t) : t = p.1 := by
  obtain ⟨u, a⟩ := p
  cases a <;> cases h <;> rfl

theorem step_eq_fault (s : State) (f : Fault) :
    step s = .fault f ↔ (stepWith Config.machine (randomByte s.draws) s).2 = .fatal f := by
  obtain ⟨d, h⟩ := step_eq_stepWith s
  rw [h, Result.withDraws_eq_fault, outcomeOf_eq_fault]

theorem step_eq_next {s t : State} (h : step s = .next t) :
    ∃ d, t = (stepWith Config.machine (randomByte s.draws) s).1.withDraws d := by
  obtain ⟨d, hd⟩ := step_eq_stepWith s
  obtain ⟨u, hu, rfl⟩ := Result.withDraws_eq_next (hd.symm.trans h)
  exact ⟨d, by rw [outcomeOf_eq_next hu]⟩

/-- What a fetch that succeeds decodes to is what the state fetches. -/
theorem fetches_iff {c : Config} {s : State} {op : Word} {i : Instr} (h : fetch c s = .ok op) :
    Fetches c s i ↔ decodeWord c.ext8xy0Fx07 op = some i := by
  obtain ⟨hpc, rfl⟩ := fetch_eq_ok h
  exact and_iff_right hpc

theorem step_draws_of_rnd {s t : State} {x : Reg} {kk : Byte} (hf : Fetches Config.machine s (.rnd x kk))
    (h : step s = .next t) : t.draws = s.draws + 1 :=
  exec_draws ((step_of_fetches hf).symm.trans h)

theorem exec_draws_of_not_rnd {i : Instr} {s t : State} (hi : ∀ x kk, i ≠ .rnd x kk)
    (h : exec i s = .next t) : t.draws = s.draws := by
  have hd := exec_draws h
  split at hd
  · exact absurd rfl (hi _ _)
  · exact hd

theorem step_draws_of_not_rnd {s t : State} (hr : ∀ x kk, ¬ Fetches Config.machine s (.rnd x kk))
    (h : step s = .next t) : t.draws = s.draws := by
  rcases stepWith_cases Config.machine 0 s with ⟨f, hf, -⟩ | ⟨op, hf, hd, -⟩ | ⟨op, i, hf, hd, -⟩
  · cases (step_of_error hf).symm.trans h
  · cases (step_of_none hf hd).symm.trans h
    rfl
  · refine exec_draws_of_not_rnd (fun x kk hi => hr x kk ?_) ((step_of_some hf hd).symm.trans h)
    exact (fetches_iff hf).2 (hi ▸ hd)

/-- Settles O57: states that agree on the ten items differ by `State.withDraws`, with which every event
commutes; the host's step is `STEP` with the selected byte up to `State.withDraws`. -/
theorem drawCounterIsOutsideTheSpecsState : Obligations.DrawCounterIsOutsideTheSpecsState := by
  refine ⟨fun c e s t hst => ?event, fun s => ⟨step_eq_fault s, fun t h => ⟨?spec, ?drawn, ?kept⟩⟩⟩
  case event =>
    rw [State.eq_withDraws hst, event_withDraws]
    exact ⟨rfl, rfl, event_draws c e s⟩
  case spec =>
    obtain ⟨d, rfl⟩ := step_eq_next h
    rfl
  case drawn => exact fun ⟨_, _, hf⟩ => step_draws_of_rnd hf h
  case kept => exact fun hr => step_draws_of_not_rnd hr h

end Sys2Proof.Machine

/-! PROOFS. The invariant of the machine and reset (spec/10_state.md R14, R23). -/

namespace Sys2Proof.Machine

/-! ### Reset -/

/-- The reset values do not speak of the counter. -/
theorem State.atReset_withDraws (c : Config) (d : Nat) : State.AtReset c (State.reset.withDraws d) where
  font := Memory.background_font c
  zero _ _ h := Memory.background_zero c h
  pc := rfl
  v r := Vector.getElem_replicate r.isLt
  i := rfl
  sp := rfl
  stack k := Vector.getElem_replicate k.isLt
  fb := Framebuffer.pixel_blank
  dt := rfl
  st := rfl
  keys k := Vector.getElem_replicate k.isLt

/-- Settles O1: both states are the reset state, beside some counter. -/
theorem resetStateIsTheSpecs : Obligations.ResetStateIsTheSpecs :=
  fun c => ⟨State.atReset_withDraws c 0, fun s => ⟨State.atReset_withDraws c s.draws, rfl⟩⟩

/-- Settles O2: nothing is listed in memory and the stack is empty. -/
theorem resetMeetsInvariant : Obligations.ResetMeetsInvariant := fun c =>
  ⟨Memory.wf_nil c, by decide, fun k hk => absurd hk (Nat.not_lt_zero k.val)⟩

/-! ### What keeps the invariant -/

/-- The invariant speaks of memory, `pc` and the live stack entries only. -/
theorem State.Inv.of_kept {c : Config} {s t : State} (hs : State.Inv c s) (hpc : t.pc.toNat ≤ 0x10FE)
    (mem : t.mem = s.mem) (stack : t.stack = s.stack) (sp : t.sp = s.sp) : State.Inv c t where
  memory := mem ▸ hs.memory
  pcBound := hpc
  stackBound := by rw [stack, sp]; exact hs.stackBound

theorem State.Inv.withDraws {c : Config} {s : State} (hs : State.Inv c s) (d : Nat) :
    State.Inv c (s.withDraws d) := hs.of_kept hs.pcBound rfl rfl rfl

theorem State.Inv.jump {c : Config} {s : State} (hs : State.Inv c s) {a : Word} (ha : a.toNat ≤ 0x10FE) :
    State.Inv c (s.jump a) := hs.of_kept ha rfl rfl rfl

theorem State.Inv.writeMem {c : Config} {s : State} (hs : State.Inv c s) {a : Nat} {bs : List Byte}
    (ha : a + bs.length ≤ memSize) :
    State.Inv c { s with mem := Memory.writeBytes c s.mem a bs } where
  memory := Memory.wf_writeBytes c hs.memory ha
  pcBound := hs.pcBound
  stackBound := hs.stackBound

theorem toNat_targetOf (nnn : Addr12) : (targetOf nnn).toNat = nnn.toNat := by
  have := nnn.isLt
  rw [targetOf, BitVec.toNat_setWidth]
  omega

/-- A jump with offset reaches at most `0xFFF + 0xFF` (R14, R87). -/
theorem toNat_targetOf_add_zextByte (nnn : Addr12) (b : Byte) :
    (targetOf nnn + zextByte b).toNat = nnn.toNat + b.toNat := by
  have := nnn.isLt
  have := b.isLt
  rw [BitVec.toNat_add, toNat_targetOf, zextByte, BitVec.toNat_setWidth]
  omega

/-- An instruction that was fetched lies at `0xFFE` or below. -/
theorem toNat_add_le_of_fetched {pc : Word} (hf : pc.toNat + 1 ≤ lastAddr) (w : Word) :
    (pc + w).toNat ≤ 0xFFE + w.toNat := by
  have hf : pc.toNat + 1 ≤ 0xFFF := hf
  have := Nat.mod_le (pc.toNat + w.toNat) (2 ^ 16)
  rw [BitVec.toNat_add]
  omega

/-- A fetched instruction that goes on to the next one keeps the invariant, if what it wrote is neither
memory nor the stack. -/
theorem State.Inv.advance {c : Config} {s u : State} (hs : State.Inv c s) (hf : s.pc.toNat + 1 ≤ lastAddr)
    (pc : u.pc = s.pc) (mem : u.mem = s.mem) (stack : u.stack = s.stack) (sp : u.sp = s.sp) :
    State.Inv c u.advance := by
  refine hs.of_kept ?_ mem stack sp
  rw [State.advance_pc, pc]
  exact (toNat_add_le_of_fetched hf 2).trans (by decide)

theorem State.Inv.skipIf {c : Config} {s : State} (hs : State.Inv c s) (hf : s.pc.toNat + 1 ≤ lastAddr)
    (b : Bool) : State.Inv c (s.skipIf b) := by
  refine hs.of_kept ?_ (s.skipIf_mem b) (s.skipIf_stack b) (s.skipIf_sp b)
  rw [State.skipIf_pc]
  exact (toNat_add_le_of_fetched hf _).trans (by cases b <;> decide)

/-- A pop lowers `SP`, so every entry still live was live before. -/
theorem State.Inv.setSp {c : Config} {s : State} (hs : State.Inv c s) {sp : Fin 17}
    (hsp : sp.val ≤ s.sp.val) : State.Inv c { s with sp := sp } where
  memory := hs.memory
  pcBound := hs.pcBound
  stackBound j hj := hs.stackBound j (hj.trans_le hsp)

/-- A push makes one more entry live: the address pushed. -/
theorem State.Inv.pushed {c : Config} {s : State} (hs : State.Inv c s) {k : Fin 16} {a : Word}
    (hk : s.sp.val = k.val) (ha : a.toNat ≤ 0x1000) :
    State.Inv c { s with stack := s.stack.set k a, sp := k.succ } where
  memory := hs.memory
  pcBound := hs.pcBound
  stackBound j hj := by
    have hj : j.val < k.val + 1 := hj
    show (s.stack.set k.val a)[j.val].toNat ≤ 0x1000
    rw [Vector.getElem_set]
    split
    · exact ha
    · exact hs.stackBound j (by omega)

/-! ### What the branching instructions can answer -/

theorem execRet_next {s t : State} (h : execRet s = .next t) :
    ∃ k : Fin 16, s.sp.val = k.val + 1 ∧ t = ({ s with sp := k.castSucc } : State).jump s.stack[k] := by
  unfold execRet raise at h
  split at h
  · cases h
  · rename_i hp
    obtain ⟨k, hk, rfl, rfl⟩ := State.pop_eq_some hp
    cases h
    exact ⟨k, hk, rfl⟩

theorem execCall_next {nnn : Addr12} {s t : State} (h : execCall nnn s = .next t) :
    ∃ k : Fin 16, s.sp.val = k.val ∧
      t = ({ s with stack := s.stack.set k (s.pc + instrWidth), sp := k.succ } : State).jump (targetOf nnn) := by
  unfold execCall raise at h
  split at h
  · cases h
  · rename_i hp
    obtain ⟨k, hk, rfl⟩ := State.push_eq_some hp
    cases h
    exact ⟨k, hk, rfl⟩

theorem execLdK_next {x : Reg} {s t : State} (h : execLdK x s = .next t) :
    t = s ∨ ∃ k, t = (s.writeV x (keyByte k)).advance := by
  unfold execLdK at h
  split at h <;> cases h
  · exact .inl rfl
  · exact .inr ⟨_, rfl⟩

theorem execDrwWith_next {c : Config} {x y : Reg} {n : Height} {s t : State}
    (h : execDrwWith c x y n s = .next t) : ∃ rows, t = drawAt x y rows s := by
  unfold execDrwWith at h
  split at h
  · cases h
    exact ⟨[], rfl⟩
  · obtain ⟨-, h⟩ := inRange_next h
    cases h
    exact ⟨_, rfl⟩

theorem execLdRegsWith_next {c : Config} {x : Reg} {s t : State} (h : execLdRegsWith c x s = .next t) :
    ∃ bs : List Byte, bs.length = x.val + 1 ∧ t = (s.writeFirstRegs bs).advance := by
  obtain ⟨-, h⟩ := inRange_next h
  exact ⟨_, Memory.length_readBytes c s.mem _ _, (Host.Outcome.next.inj h).symm⟩

/-! ### Every instruction, every event, every run -/

theorem length_firstRegs_le (s : State) (x : Reg) : (s.firstRegs x).length ≤ x.val + 1 := by
  simp [State.firstRegs]

/-- A fetched instruction keeps the invariant: it goes on, skips, jumps, pushes or pops, and writes only
addresses of memory. -/
theorem execWith_keeps_inv {c : Config} {rnd : Byte} {i : Instr} {s t : State} (hs : State.Inv c s)
    (hf : s.pc.toNat + 1 ≤ lastAddr) (h : execWith c rnd i s = .next t) : State.Inv c t := by
  cases i
  case ret =>
    obtain ⟨k, hk, rfl⟩ := execRet_next h
    have htop : (s.stack[k]).toNat ≤ 0x1000 := hs.stackBound k (by omega)
    have hsp : k.castSucc.val ≤ s.sp.val := by rw [Fin.val_castSucc]; omega
    exact (hs.setSp hsp).jump (htop.trans (by decide))
  case call nnn =>
    obtain ⟨k, hk, rfl⟩ := execCall_next h
    refine (hs.pushed hk (toNat_add_le_of_fetched hf instrWidth)).jump ?_
    rw [toNat_targetOf]
    omega
  case jp nnn =>
    cases h
    exact hs.jump (by rw [toNat_targetOf]; omega)
  case jpV0 nnn =>
    cases h
    exact hs.jump (by rw [toNat_targetOf_add_zextByte]; omega)
  case seImm | sneImm | seReg | sneReg =>
    cases h
    exact hs.skipIf hf _
  case skp | sknp =>
    obtain ⟨_, -, h⟩ := withKey_next h
    cases h
    exact hs.skipIf hf _
  case ldB x =>
    obtain ⟨hi, h⟩ := inRange_next h
    cases h
    have hi : s.i.toNat + 2 ≤ 0xFFF := hi
    refine (hs.writeMem ?_).advance hf rfl rfl rfl rfl
    show s.i.toNat + 3 ≤ 4096
    omega
  case stRegs x =>
    obtain ⟨hi, h⟩ := inRange_next h
    cases h
    have hi : s.i.toNat + x.val ≤ 0xFFF := hi
    have := length_firstRegs_le s x
    refine (hs.writeMem ?_).advance hf rfl rfl rfl rfl
    show s.i.toNat + (s.firstRegs x).length ≤ 4096
    omega
  case ldRegs x =>
    obtain ⟨bs, -, rfl⟩ := execLdRegsWith_next h
    exact hs.advance hf (s.writeFirstRegs_pc bs) (s.writeFirstRegs_mem bs) (s.writeFirstRegs_stack bs)
      (s.writeFirstRegs_sp bs)
  case ldK x =>
    rcases execLdK_next h with rfl | ⟨k, rfl⟩
    · exact hs
    · exact hs.advance hf rfl rfl rfl rfl
  case drw x y n =>
    obtain ⟨rows, rfl⟩ := execDrwWith_next h
    exact hs.advance hf rfl rfl rfl rfl
  all_goals
    cases h
    exact hs.advance hf rfl rfl rfl rfl

theorem stepWith_keeps_inv {c : Config} {s : State} (hs : State.Inv c s) (rnd : Byte) :
    State.Inv c (stepWith c rnd s).1 := by
  rcases stepWith_cases c rnd s with ⟨f, -, h⟩ | ⟨op, -, -, h⟩ | ⟨op, i, hf, -, h⟩ <;> rw [h]
  · exact hs
  · exact hs
  · cases hi : execWith c rnd i s with
    | next t => exact execWith_keeps_inv hs (fetch_eq_ok hf).1 hi
    | fault f => exact hs
    | refused r => exact hs

theorem load_keeps_inv {c : Config} {s : State} (hs : State.Inv c s) (bytes : List Byte) :
    State.Inv c (s.load c bytes).1 := by
  unfold State.load
  split
  · exact hs
  · rename_i h
    have h : ¬ bytes.length > 3584 := h
    exact hs.writeMem (show 0x200 + bytes.length ≤ 4096 by omega)

/-- Settles O4: the events one by one; a step by `execWith_keeps_inv`. -/
theorem everyEventKeepsInvariant : Obligations.EveryEventKeepsInvariant := by
  intro c e s hs
  cases e with
  | reset => exact (resetMeetsInvariant c).withDraws s.draws
  | load bytes => exact load_keeps_inv hs bytes
  | step rnd => exact stepWith_keeps_inv hs rnd
  | tick => exact hs.of_kept hs.pcBound rfl rfl rfl
  | keys k => exact hs.of_kept hs.pcBound rfl rfl rfl

/-- Settles O3: the host's step is a `STEP` up to the counter, of which the invariant does not speak. -/
theorem everyStepKeepsInvariant : Obligations.EveryStepKeepsInvariant := by
  intro s t hs h
  obtain ⟨d, rfl⟩ := step_eq_next h
  exact (stepWith_keeps_inv hs _).withDraws d

theorem runEvents_keeps_inv {c : Config} (es : List Event) {s : State} (hs : State.Inv c s) :
    State.Inv c (runEvents c es s) := by
  induction es generalizing s with
  | nil => exact hs
  | cons e es ih => exact ih (everyEventKeepsInvariant c e s hs)

/-- Settles O5: the invariant holds at reset and every event keeps it. -/
theorem reachablePcStaysBelow10FF : Obligations.ReachablePcStaysBelow10FF :=
  fun c es => (runEvents_keeps_inv es (resetMeetsInvariant c)).pcBound

end Sys2Proof.Machine

/-! PROOFS. Who writes what, of all instructions, and what the host can read (spec/10_state.md sections 1
to 4, R24). -/

namespace Sys2Proof.Machine

/-! ### The frame of every instruction -/

/-- The parts an instruction can change where it answers a next state: the column "Written by" of
spec/10_state.md, read by instruction. -/
def writtenParts : Instr → List Part
  | .cls => [.fb, .pc]
  | .ret => [.sp, .pc]
  | .call _ => [.stack, .sp, .pc]
  | .jp _ | .jpV0 _ | .seImm _ _ | .sneImm _ _ | .seReg _ _ | .sneReg _ _ | .skp _ | .sknp _ => [.pc]
  | .ldImm _ _ | .addImm _ _ | .or _ _ | .and _ _ | .xor _ _ | .addReg _ _ | .sub _ _ | .shr _ _
  | .subn _ _ | .shl _ _ | .ldK _ | .ldRegs _ | .ldReg _ _ | .ldVxDt _ => [.v, .pc]
  | .rnd _ _ => [.v, .pc, .draws]
  | .drw _ _ _ => [.v, .fb, .pc]
  | .ldI _ | .addI _ | .ldF _ => [.i, .pc]
  | .ldDt _ => [.dt, .pc]
  | .ldSt _ => [.st, .pc]
  | .ldB _ | .stRegs _ => [.mem, .pc]

/-- An instruction changes no other part. -/
theorem exec_frame {i : Instr} {s t : State} (h : exec i s = .next t) :
    SameExcept (writtenParts i) s t := by
  cases i
  case ret =>
    obtain ⟨k, -, rfl⟩ := execRet_next h
    apply SameExcept.of_fields <;> simp [writtenParts]
  case call nnn =>
    obtain ⟨k, -, rfl⟩ := execCall_next h
    apply SameExcept.of_fields <;> simp [writtenParts]
  case skp | sknp =>
    obtain ⟨_, -, h⟩ := withKey_next h
    cases h
    apply SameExcept.of_fields <;> simp [writtenParts]
  case ldB | stRegs =>
    obtain ⟨-, h⟩ := inRange_next h
    cases h
    apply SameExcept.of_fields <;> simp [writtenParts]
  case ldRegs x =>
    obtain ⟨bs, -, rfl⟩ := execLdRegsWith_next h
    apply SameExcept.of_fields <;> simp [writtenParts]
  case ldK x =>
    rcases execLdK_next h with rfl | ⟨k, rfl⟩ <;>
      apply SameExcept.of_fields <;> simp [writtenParts]
  case drw x y n =>
    obtain ⟨rows, rfl⟩ := execDrwWith_next h
    apply SameExcept.of_fields <;> simp [writtenParts, drawAt]
  all_goals
    cases h
    apply SameExcept.of_fields <;> simp [writtenParts]

/-- Settles O24: each clause is one part of the frame, for the instructions that do not write the part. -/
theorem eachPartHasOnlyItsWriters : Obligations.EachPartHasOnlyItsWriters := by
  intro i s t h
  have frame := exec_frame h
  refine ⟨?index, ?sp, ?stack, ?fb, ?dt, ?st, ?mem, ?keys⟩
  case index =>
    cases i
    case ldI | addI | ldF => trivial
    all_goals exact frame.i (by simp [writtenParts])
  case sp =>
    cases i
    case call | ret => trivial
    all_goals exact frame.sp (by simp [writtenParts])
  case stack =>
    cases i
    case call => trivial
    all_goals exact frame.stack (by simp [writtenParts])
  case fb =>
    cases i
    case cls | drw => trivial
    all_goals exact frame.fb (by simp [writtenParts])
  case dt =>
    cases i
    case ldDt => trivial
    all_goals exact frame.dt (by simp [writtenParts])
  case st =>
    cases i
    case ldSt => trivial
    all_goals exact frame.st (by simp [writtenParts])
  case mem =>
    cases i
    case ldB | stRegs => trivial
    all_goals exact frame.readMem (by simp [writtenParts])
  case keys =>
    refine frame.keys ?_
    cases i <;> simp [writtenParts]

/-! ### The flag -/

theorem flagByte_zero_or_one (b : Bool) : flagByte b = 0 ∨ flagByte b = 1 := by
  cases b
  · exact .inl rfl
  · exact .inr rfl

/-- Settles O25: the six write a `flagByte` to `VF` last; the others that write registers write the named
ones; the rest leave `V` alone by their frame. -/
theorem onlySixInstructionsWriteTheFlag : Obligations.OnlySixInstructionsWriteTheFlag := by
  intro i s t h
  cases i
  case addReg | sub | shr | subn | shl =>
    cases h
    rw [State.readV_advance, State.readV_writeVFlag_flag]
    exact flagByte_zero_or_one _
  case drw x y n =>
    obtain ⟨rows, rfl⟩ := execDrwWith_next h
    unfold drawAt
    rw [State.readV_advance, State.readV_writeV_same]
    exact flagByte_zero_or_one _
  case ldImm | addImm | or | and | xor | ldReg | ldVxDt | rnd =>
    cases h
    exact fun hx => State.readV_writeV_other s _ hx.symm
  case ldK x =>
    intro hx
    rcases execLdK_next h with rfl | ⟨k, rfl⟩
    · rfl
    · exact State.readV_writeV_other s _ hx.symm
  case ldRegs x =>
    intro hx
    obtain ⟨bs, hbs, rfl⟩ := execLdRegsWith_next h
    have hlen : bs.length ≤ regF.val := by
      have := Fin.val_ne_of_ne hx
      have hf : (regF : Reg).val = 15 := rfl
      omega
    rw [State.readV_advance, State.readV_writeFirstRegs, List.getElem?_eq_none hlen, Option.getD_none]
  all_goals exact (exec_frame h).v (by simp [writtenParts]) regF

/-! ### What the host can read -/

theorem load_hostView (c : Config) (s : State) (bytes : List Byte) :
    (s.load c bytes).1.hostView = s.hostView := by
  unfold State.load
  split <;> rfl

/-- Settles O10: `LOAD` writes memory at most, `KEYS` the key flags. -/
theorem loadAndKeysKeepTheHostsView : Obligations.LoadAndKeysKeepTheHostsView := by
  refine fun c s => ⟨?sound, load_hostView c s, fun k => rfl⟩
  case sound =>
    unfold State.soundOn
    exact bne_iff_ne.trans BitVec.toNat_ne_iff_ne.symm

end Sys2Proof.Machine

/-! PROOFS. Memory: a write changes one byte, and bytes a block store puts under `pc` are what the next
fetch reads (spec/20_memory.md). -/

namespace Sys2Proof.Machine

/-- Settles O47: the read-after-write law at the same and at another address, and the canonical form. -/
theorem writeChangesOneByte : Obligations.WriteChangesOneByte := by
  refine fun c m a b => ⟨?same, fun a' ha' => ?other, fun hm ha => ?canonical⟩
  case same => rw [Memory.read_write, if_pos rfl]
  case other => rw [Memory.read_write, if_neg ha']
  case canonical => exact Memory.wf_write c hm (Nat.lt_succ_of_le ha) b

/-! ### The block store -/

theorem length_firstRegs (s : State) (x : Reg) : (s.firstRegs x).length = x.val + 1 := by
  have hx := x.isLt
  simp only [State.firstRegs, List.length_take, Vector.length_toList]
  omega

theorem getElem_firstRegs (s : State) (x : Reg) {k : Nat} (hk : k < 16) (h : k < (s.firstRegs x).length) :
    (s.firstRegs x)[k] = s.readV ⟨k, hk⟩ := by
  simp [State.firstRegs, State.readV]

theorem execStRegs_next {x : Reg} {s t : State} (h : execStRegs x s = .next t) :
    s.dataAddr x.val ≤ lastAddr ∧
      t = { s with mem := Memory.writeBytes Config.machine s.mem (s.dataAddr 0) (s.firstRegs x) }.advance := by
  obtain ⟨hr, h⟩ := inRange_next h
  exact ⟨hr, (Host.Outcome.next.inj h).symm⟩

/-- The register `k` stands at `I + k` after the block store, for every `k` up to `x` (R114). -/
theorem readMem_of_execStRegs {x : Reg} {s t : State} (h : execStRegs x s = .next t) {k : Reg}
    (hk : k ≤ x) : t.readMem (s.dataAddr k.val) = s.readV k := by
  obtain ⟨-, rfl⟩ := execStRegs_next h
  have hlen : k.val < (s.firstRegs x).length := by
    rw [length_firstRegs]
    exact Nat.lt_succ_of_le hk
  exact (Memory.read_writeBytes_inside _ s.mem _ hlen).trans (getElem_firstRegs s x k.isLt hlen)

/-! ### The fetch, byte by byte -/

/-- The word fetched has the byte at `pc` above the byte at `pc + 1` (R37). -/
theorem fetch_bytes {c : Config} {s : State} (h : s.pc.toNat + 1 ≤ lastAddr) :
    ∃ op : Word, fetch c s = .ok op ∧ op.toNat / 0x100 = (Memory.read c s.mem s.pc.toNat).toNat ∧
      op.toNat % 0x100 = (Memory.read c s.mem (s.pc.toNat + 1)).toNat := by
  have hi := (Memory.read c s.mem s.pc.toNat).isLt
  have lo := (Memory.read c s.mem (s.pc.toNat + 1)).isLt
  refine ⟨_, fetch_ok h, ?_⟩
  rw [BitVec.toNat_ofNat, Nat.mod_eq_of_lt (by omega)]
  omega

/-- Settles O46: the store moves `pc` to `I`, so the two bytes fetched are those of the first two
registers. -/
theorem storedBytesAreFetchedNext : Obligations.StoredBytesAreFetchedNext := by
  intro x s t h hx hi
  have hst : execStRegs x s = .next t := h
  obtain ⟨hr, ht⟩ := execStRegs_next hst
  have hpc : t.pc = s.i := by
    rw [ht, hi]
    rfl
  have hin : t.pc.toNat + 1 ≤ lastAddr := by
    rw [hpc]
    exact (Nat.add_le_add_left hx _).trans hr
  have hV0 : t.readMem t.pc.toNat = s.readV 0 := by
    rw [hpc]
    exact readMem_of_execStRegs hst (k := 0) (Nat.zero_le _)
  have hV1 : t.readMem (t.pc.toNat + 1) = s.readV 1 := by
    rw [hpc]
    exact readMem_of_execStRegs hst (k := 1) hx
  rw [← hV0, ← hV1]
  exact fetch_bytes hin

end Sys2Proof.Machine

/-! PROOFS. Encoding: the decoder and the encoder undo each other, the decoder follows the rows of the
opcode map, and the words it does not recognize (spec/30_encoding.md R51 to R57). -/

namespace Sys2Proof

/-! ### Well-formed instructions -/

/-- The 32 instructions of R55 need no switch (R6). -/
theorem wellFormed_of_not_isExtension (ext : Bool) {i : Instr} (h : i.isExtension = false) :
    i.wellFormed ext = true := by
  rw [Instr.wellFormed, h, Bool.not_false, Bool.or_true]

/-- The two of R57 are instructions exactly under the switch. -/
theorem wellFormed_of_isExtension (ext : Bool) {i : Instr} (h : i.isExtension = true) :
    i.wellFormed ext = ext := by
  rw [Instr.wellFormed, h, Bool.not_true, Bool.or_false]

/-! ### From the instruction to its word and back -/

/-- The decoder reads from an encoding the operands that were put in. The cases go by the part of
the decoder that takes the word: the two exact words, R54's dispatch itself, group `8`, group `E`, group `F`. -/
theorem decodeWord_encode {ext : Bool} {i : Instr} (hw : i.wellFormed ext = true) :
    decodeWord ext (encode i) = some i := by
  cases i
  case cls | ret => rfl
  case jp | call | ldI | jpV0 | seImm | sneImm | ldImm | addImm | rnd | drw | seReg | sneReg =>
    simp [encode, decodeWord]
  case or | and | xor | addReg | sub | shr | subn | shl =>
    simp [encode, decodeWord_of_fieldH_eight, decode8]
  case skp | sknp => simp [encode, decodeWord, decodeE]
  case ldK | ldDt | ldSt | addI | ldF | ldB | stRegs | ldRegs =>
    simp [encode, decodeWord_of_fieldH_fifteen, decodeF]
  case ldReg x y =>
    rw [decodeWord_encode_ldReg, if_pos ((wellFormed_of_isExtension ext rfl).symm.trans hw)]
  case ldVxDt x =>
    rw [decodeWord_encode_ldVxDt, if_pos ((wellFormed_of_isExtension ext rfl).symm.trans hw)]

/-- Settles O11: every field of a format is read back as it was written. -/
theorem decodeOfEncodeIsTheInstruction : Obligations.DecodeOfEncodeIsTheInstruction :=
  fun _ _ => decodeWord_encode

/-! ### From the word to its instruction and back -/

section fixedDigits
variable {op : Word} {h : BitVec 4} (hH : fieldH op = h)
include hH

/-! A word is the format of its fields, whichever of them are fixed. -/

theorem formatA_of_fieldH : formatA h (fieldNNN op) = op := hH ▸ formatA_fields op

theorem formatXK_of_fieldH : formatXK h (fieldX op) (fieldKK op) = op := hH ▸ formatXK_fields op

theorem formatXK_of_fieldKK {kk : Byte} (hK : fieldKK op = kk) : formatXK h (fieldX op) kk = op :=
  hK ▸ formatXK_of_fieldH hH

theorem formatXYN_of_fieldN {n : BitVec 4} (hN : fieldN op = n) :
    formatXYN h (fieldX op) (fieldY op) n = op :=
  hH ▸ hN ▸ formatXYN_fields op

end fixedDigits

/-- `op` is the word of the instruction `i` of a machine with the switch as given: what decoding `op` to
`i` has to guarantee. -/
def IsWordFor (ext : Bool) (op : Word) (i : Instr) : Prop := encode i = op ∧ i.wellFormed ext = true

theorem IsWordFor.of_not_isExtension {ext : Bool} {op : Word} {i : Instr} (h : encode i = op)
    (hi : i.isExtension = false) : IsWordFor ext op i :=
  ⟨h, wellFormed_of_not_isExtension ext hi⟩

theorem IsWordFor.of_isExtension {ext : Bool} {op : Word} {i : Instr} (h : encode i = op)
    (hi : i.isExtension = true) (he : ext = true) : IsWordFor ext op i :=
  ⟨h, (wellFormed_of_isExtension ext hi).trans he⟩

theorem decode0_sound (ext : Bool) {op : Word} {i : Instr} (h : decode0 op = some i) :
    IsWordFor ext op i := by
  unfold decode0 at h
  split at h <;> cases h <;> exact .of_not_isExtension rfl rfl

theorem decode8_sound {ext : Bool} {op : Word} {i : Instr} (hH : fieldH op = 0x8)
    (h : decode8 ext op = some i) : IsWordFor ext op i := by
  unfold decode8 at h
  split at h
  case h_1 hN => -- `8xy0`
    obtain ⟨he, h⟩ := Option.ite_none_right_eq_some.1 h
    cases h
    exact .of_isExtension (formatXYN_of_fieldN hH hN) rfl he
  case h_10 => cases h
  all_goals
    cases h
    exact .of_not_isExtension (formatXYN_of_fieldN hH ‹_›) rfl

theorem decodeE_sound (ext : Bool) {op : Word} {i : Instr} (hH : fieldH op = 0xE)
    (h : decodeE op = some i) : IsWordFor ext op i := by
  unfold decodeE at h
  split at h <;> cases h <;> exact .of_not_isExtension (formatXK_of_fieldKK hH ‹_›) rfl

theorem decodeF_sound {ext : Bool} {op : Word} {i : Instr} (hH : fieldH op = 0xF)
    (h : decodeF ext op = some i) : IsWordFor ext op i := by
  unfold decodeF at h
  split at h
  case h_1 hK => -- `Fx07`
    obtain ⟨he, h⟩ := Option.ite_none_right_eq_some.1 h
    cases h
    exact .of_isExtension (formatXK_of_fieldKK hH hK) rfl he
  case h_10 => cases h
  all_goals
    cases h
    exact .of_not_isExtension (formatXK_of_fieldKK hH ‹_›) rfl

/-- The cases are the lines of R54's dispatch: `h_1` to `h_16` are the first digits `0` to `F`. -/
theorem decodeWord_sound {ext : Bool} {op : Word} {i : Instr} (h : decodeWord ext op = some i) :
    IsWordFor ext op i := by
  unfold decodeWord at h
  split at h
  case h_1 => exact decode0_sound ext h
  case h_9 hH => exact decode8_sound hH h
  case h_15 hH => exact decodeE_sound ext hH h
  case h_16 hH => exact decodeF_sound hH h
  case h_2 hH | h_3 hH | h_11 hH | h_12 hH => -- format A
    cases h
    exact .of_not_isExtension (formatA_of_fieldH hH) rfl
  case h_4 hH | h_5 hH | h_7 hH | h_8 hH | h_13 hH => -- format XK
    cases h
    exact .of_not_isExtension (formatXK_of_fieldH hH) rfl
  case h_6 hH | h_10 hH => -- format XY with the last digit 0
    obtain ⟨hN, h⟩ := Option.ite_none_right_eq_some.1 h
    cases h
    exact .of_not_isExtension (formatXYN_of_fieldN hH hN) rfl
  case h_14 hH => -- format XYN
    cases h
    exact .of_not_isExtension (formatXYN_of_fieldN hH (nibble_fieldHeight op).symm) rfl
  case h_17 => cases h

/-- Settles O12: every line of the decoder keeps all the fields of the word. -/
theorem encodeOfDecodeIsTheWord : Obligations.EncodeOfDecodeIsTheWord :=
  fun _ _ _ => decodeWord_sound

/-! ### The words no instruction has (R56) -/

/-- A digit has no seventeenth value. -/
theorem mem_digits : ∀ d : BitVec 4,
    d ∈ ([0, 1, 2, 3, 4, 5, 6, 7, 8, 9, 0xA, 0xB, 0xC, 0xD, 0xE, 0xF] : List (BitVec 4)) := by
  decide

theorem decode0_eq_none_iff (op : Word) : decode0 op = none ↔ op ≠ 0x00E0 ∧ op ≠ 0x00EE := by
  unfold decode0
  split <;> simp_all

theorem decode8_eq_none_iff (ext : Bool) (op : Word) : decode8 ext op = none ↔
    (fieldN op = 0x0 ∧ ext = false) ∨ fieldN op ∈ [0x8, 0x9, 0xA, 0xB, 0xC, 0xD, 0xF] := by
  unfold decode8
  split
  case h_10 =>
    have := mem_digits (fieldN op)
    simp_all
  all_goals simp_all

theorem decodeE_eq_none_iff (op : Word) : decodeE op = none ↔ fieldKK op ∉ [0x9E, 0xA1] := by
  unfold decodeE
  split <;> simp_all

theorem decodeF_eq_none_iff (ext : Bool) (op : Word) : decodeF ext op = none ↔
    fieldKK op ∉ [0x0A, 0x15, 0x18, 0x1E, 0x29, 0x33, 0x55, 0x65] ∧
      (fieldKK op = 0x07 → ext = false) := by
  unfold decodeF
  split <;> simp_all

/-- The groups of the decoder that refuse a word, each by the fields it looks at. -/
theorem decodeWord_eq_none_iff (ext : Bool) (op : Word) : decodeWord ext op = none ↔
    (fieldH op = 0x0 ∧ (op ≠ 0x00E0 ∧ op ≠ 0x00EE)) ∨
    (fieldH op = 0x5 ∧ fieldN op ≠ 0x0) ∨
    (fieldH op = 0x8 ∧ ((fieldN op = 0x0 ∧ ext = false) ∨
      fieldN op ∈ [0x8, 0x9, 0xA, 0xB, 0xC, 0xD, 0xF])) ∨
    (fieldH op = 0x9 ∧ fieldN op ≠ 0x0) ∨
    (fieldH op = 0xE ∧ fieldKK op ∉ [0x9E, 0xA1]) ∨
    (fieldH op = 0xF ∧ (fieldKK op ∉ [0x0A, 0x15, 0x18, 0x1E, 0x29, 0x33, 0x55, 0x65] ∧
      (fieldKK op = 0x07 → ext = false))) := by
  rw [← decode0_eq_none_iff, ← decode8_eq_none_iff, ← decodeE_eq_none_iff, ← decodeF_eq_none_iff]
  unfold decodeWord
  split
  case h_17 =>
    have := mem_digits (fieldH op)
    simp_all
  all_goals simp_all

/-- Settles O14: with the switch off the refusing groups are the six of R56, once the fields are written
as numbers. -/
theorem unrecognizedWordsAreTheSixGroups : Obligations.UnrecognizedWordsAreTheSixGroups := by
  intro op
  rw [decodeWord_eq_none_iff]
  simp [← BitVec.toNat_inj, toNat_fieldH, toNat_fieldN, toNat_fieldKK]

/-! ### The rows of the opcode map (R54)

Two facts about the finite table are checked row by row; the rest holds of every word. No two rows agree
on the bits they both look at, so no word has two rows. And a row looks at every bit on which recognition
depends, so the decoder recognizes all words of a row or none. -/

theorem and_mask_of_selects {r : OpcodeRow} {op : Word} (h : r.selects op = true) :
    op &&& r.mask = r.value :=
  beq_iff_eq.1 h

theorem rowsOf_subset (ext : Bool) : rowsOf ext ⊆ rowsOf true := by
  cases ext
  · exact List.subset_append_left _ _
  · exact List.Subset.refl _

theorem row_eq_of_values_agree : ∀ r ∈ rowsOf true, ∀ q ∈ rowsOf true,
    r.value &&& q.mask = q.value &&& r.mask → r = q := by
  decide

/-- No two rows match the same word: on the bits both look at, both values are the word's. -/
theorem row_unique {r q : OpcodeRow} {op : Word} (hr : r ∈ rowsOf true) (hq : q ∈ rowsOf true)
    (hrs : r.selects op = true) (hqs : q.selects op = true) : r = q := by
  refine row_eq_of_values_agree r hr q hq ?_
  rw [← and_mask_of_selects hrs, ← and_mask_of_selects hqs]
  ac_rfl

/-- The first digits after which the last digit selects the instruction. -/
def lastDigitGroups : List (BitVec 4) := [0x5, 0x8, 0x9]

/-- The first digits after which the last byte selects the instruction. -/
def lastByteGroups : List (BitVec 4) := [0xE, 0xF]

/-- Outside group `0`, whether a word is recognized depends on its first digit and, in some groups, on its
last digit or its last byte. -/
theorem decodeWord_eq_none_congr (ext : Bool) {op v : Word} (hH : fieldH op = fieldH v)
    (h0 : fieldH v ≠ 0x0) (hN : fieldH v ∈ lastDigitGroups → fieldN op = fieldN v)
    (hK : fieldH v ∈ lastByteGroups → fieldKK op = fieldKK v) :
    decodeWord ext op = none ↔ decodeWord ext v = none := by
  rw [decodeWord_eq_none_iff, decodeWord_eq_none_iff, hH]
  refine or_congr (and_congr_right fun h => absurd h h0) <| or_congr (and_congr_right fun h => ?five) <|
    or_congr (and_congr_right fun h => ?eight) <| or_congr (and_congr_right fun h => ?nine) <|
    or_congr (and_congr_right fun h => ?fourteen) (and_congr_right fun h => ?fifteen)
  case five | eight | nine => rw [hN (by simp [h, lastDigitGroups])]
  case fourteen | fifteen => rw [hK (by simp [h, lastByteGroups])]

/-- Every row's mask covers what recognition depends on in the row's group. -/
theorem mask_covers_group : ∀ r ∈ rowsOf true, r.mask = 0xFFFF ∨ fieldH r.value ≠ 0x0 ∧
    (r.mask = 0xF000 ∧ fieldH r.value ∉ lastDigitGroups ∧ fieldH r.value ∉ lastByteGroups ∨
      r.mask = 0xF00F ∧ fieldH r.value ∉ lastByteGroups ∨
      r.mask = 0xF0FF ∧ fieldH r.value ∉ lastDigitGroups) := by
  decide

theorem fieldH_of_and_F000 {op v : Word} (h : op &&& 0xF000 = v) : fieldH op = fieldH v := by
  rw [← h, Laws.and_F000, fieldH_formatA]

theorem fields_of_and_F00F {op v : Word} (h : op &&& 0xF00F = v) :
    fieldH op = fieldH v ∧ fieldN op = fieldN v := by
  rw [← h, Laws.and_F00F, fieldH_formatXYN, fieldN_formatXYN]
  exact ⟨rfl, rfl⟩

theorem fields_of_and_F0FF {op v : Word} (h : op &&& 0xF0FF = v) :
    fieldH op = fieldH v ∧ fieldKK op = fieldKK v := by
  rw [← h, Laws.and_F0FF, fieldH_formatXK, fieldKK_formatXK]
  exact ⟨rfl, rfl⟩

/-- A word is recognized iff the match value of its row is. -/
theorem decodeWord_eq_none_iff_value (ext : Bool) {r : OpcodeRow} {op : Word} (hr : r ∈ rowsOf true)
    (h : r.selects op = true) : decodeWord ext op = none ↔ decodeWord ext r.value = none := by
  have hv := and_mask_of_selects h
  obtain hm | ⟨h0, ⟨hm, hNot, hNot'⟩ | ⟨hm, hNot⟩ | ⟨hm, hNot⟩⟩ := mask_covers_group r hr <;>
    rw [hm] at hv
  · rw [← hv, show op &&& 0xFFFF = op from BitVec.and_allOnes]
  · exact decodeWord_eq_none_congr ext (fieldH_of_and_F000 hv) h0 (absurd · hNot) (absurd · hNot')
  · obtain ⟨hH, hN⟩ := fields_of_and_F00F hv
    exact decodeWord_eq_none_congr ext hH h0 (fun _ => hN) (absurd · hNot)
  · obtain ⟨hH, hK⟩ := fields_of_and_F0FF hv
    exact decodeWord_eq_none_congr ext hH h0 (absurd · hNot) (fun _ => hK)

theorem decodeWord_value_eq_none_iff : ∀ ext, ∀ r ∈ rowsOf true,
    (decodeWord ext r.value = none ↔ r ∉ rowsOf ext) := by
  decide

/-- The decoder refuses a word of a row exactly when the row is not the machine's. -/
theorem decodeWord_eq_none_iff_not_mem (ext : Bool) {r : OpcodeRow} {op : Word} (hr : r ∈ rowsOf true)
    (h : r.selects op = true) : decodeWord ext op = none ↔ r ∉ rowsOf ext :=
  (decodeWord_eq_none_iff_value ext hr h).trans (decodeWord_value_eq_none_iff ext r hr)

/-- The family `EncodesIntoItsRow` has a member for every instruction. -/
theorem encodesIntoItsRow : ∀ i : Instr, Laws.EncodesIntoItsRow.Statement i
  | .cls => Laws.EncodesIntoItsRow.cls
  | .ret => Laws.EncodesIntoItsRow.ret
  | .jp nnn => Laws.EncodesIntoItsRow.jp nnn
  | .call nnn => Laws.EncodesIntoItsRow.call nnn
  | .seImm x kk => Laws.EncodesIntoItsRow.seImm x kk
  | .sneImm x kk => Laws.EncodesIntoItsRow.sneImm x kk
  | .seReg x y => Laws.EncodesIntoItsRow.seReg x y
  | .ldImm x kk => Laws.EncodesIntoItsRow.ldImm x kk
  | .addImm x kk => Laws.EncodesIntoItsRow.addImm x kk
  | .or x y => Laws.EncodesIntoItsRow.or x y
  | .and x y => Laws.EncodesIntoItsRow.and x y
  | .xor x y => Laws.EncodesIntoItsRow.xor x y
  | .addReg x y => Laws.EncodesIntoItsRow.addReg x y
  | .sub x y => Laws.EncodesIntoItsRow.sub x y
  | .shr x y => Laws.EncodesIntoItsRow.shr x y
  | .subn x y => Laws.EncodesIntoItsRow.subn x y
  | .shl x y => Laws.EncodesIntoItsRow.shl x y
  | .sneReg x y => Laws.EncodesIntoItsRow.sneReg x y
  | .ldI nnn => Laws.EncodesIntoItsRow.ldI nnn
  | .jpV0 nnn => Laws.EncodesIntoItsRow.jpV0 nnn
  | .rnd x kk => Laws.EncodesIntoItsRow.rnd x kk
  | .drw x y n => Laws.EncodesIntoItsRow.drw x y n
  | .skp x => Laws.EncodesIntoItsRow.skp x
  | .sknp x => Laws.EncodesIntoItsRow.sknp x
  | .ldK x => Laws.EncodesIntoItsRow.ldK x
  | .ldDt x => Laws.EncodesIntoItsRow.ldDt x
  | .ldSt x => Laws.EncodesIntoItsRow.ldSt x
  | .addI x => Laws.EncodesIntoItsRow.addI x
  | .ldF x => Laws.EncodesIntoItsRow.ldF x
  | .ldB x => Laws.EncodesIntoItsRow.ldB x
  | .stRegs x => Laws.EncodesIntoItsRow.stRegs x
  | .ldRegs x => Laws.EncodesIntoItsRow.ldRegs x
  | .ldReg x y => Laws.EncodesIntoItsRow.ldReg x y
  | .ldVxDt x => Laws.EncodesIntoItsRow.ldVxDt x

/-- A word that decodes to `i` is selected by the row with the mnemonic of `i`. -/
theorem exists_row_of_decodeWord {ext : Bool} {op : Word} {i : Instr} (h : decodeWord ext op = some i) :
    ∃ r ∈ rowsOf true, r.mnemonic = mnemonicOf i ∧ r.selects op = true := by
  obtain ⟨he, -⟩ := decodeWord_sound h
  exact he ▸ encodesIntoItsRow i

/-- Settles O13: a decoded word has the row of its instruction, which is its only row; and a row of the
machine has no unrecognized word. -/
theorem decodeFollowsTheOpcodeMap : Obligations.DecodeFollowsTheOpcodeMap := by
  intro ext op
  refine ⟨⟨fun h r hr => ?noRow, fun h => ?none⟩, fun i h r hr hs => ?mnemonic,
    fun r hr q hq => row_unique (rowsOf_subset ext hr) (rowsOf_subset ext hq)⟩
  case noRow =>
    by_contra hs
    have hs : r.selects op = true := Bool.eq_true_of_not_eq_false hs
    exact (decodeWord_eq_none_iff_not_mem ext (rowsOf_subset ext hr) hs).1 h hr
  case none =>
    by_contra hd
    obtain ⟨i, hi⟩ := Option.ne_none_iff_exists'.1 hd
    obtain ⟨r, hr, -, hs⟩ := exists_row_of_decodeWord hi
    have hmem : r ∈ rowsOf ext := by
      by_contra hr'
      exact hd ((decodeWord_eq_none_iff_not_mem ext hr hs).2 hr')
    exact absurd hs (Bool.eq_false_iff.1 (h r hmem))
  case mnemonic =>
    obtain ⟨q, hq, hm, hqs⟩ := exists_row_of_decodeWord h
    rw [row_unique (rowsOf_subset ext hr) hq hs hqs, hm]

/-! ### The examples of the spec -/

/-- A number that is the encoding of one of the 32 instructions is a word of that instruction. -/
theorem isWordOf_of_encode {n : Nat} {i : Instr} (h : encode i = BitVec.ofNat 16 n)
    (hi : i.isExtension = false) : Machine.IsWordOf n i := by
  rw [Machine.IsWordOf, ← h]
  exact decodeWord_encode (wellFormed_of_not_isExtension _ hi)

/-- Settles O15: each word is the encoding of its instruction. -/
theorem exampleWordsDecode : Obligations.ExampleWordsDecode := by
  refine ⟨?_, ?_, ?_, ?_, ?_, ?_, ?_, ?_, ?_, ?_, ?_, ?_, ?_, ?_, ?_⟩ <;>
    exact isWordOf_of_encode rfl rfl

end Sys2Proof

/-! PROOFS. Fetch, decode, execute: what the fetch reads, that a step is the meaning of the decoded
instruction and nothing around it, its outcomes, and what of it depends on the random byte
(spec/40_fetch_decode_execute.md R70 to R79). -/

namespace Sys2Proof.Machine

/-! ### The fetch and the decoded instruction -/

/-- Settles O16: the two cases of the fetch. -/
theorem fetchIsBigEndianAndBounded : Obligations.FetchIsBigEndianAndBounded :=
  fun _ _ => ⟨fun h => ⟨fetch_error h, fun _ => stepWith_of_error (fetch_error h)⟩, fetch_bytes⟩

/-- Settles O17: the two hypotheses say that the state fetches `i`. -/
theorem stepRunsTheDecodedInstruction : Obligations.StepRunsTheDecodedInstruction :=
  fun _ _ hpc hi => step_of_fetches ⟨hpc, hi⟩

/-- The fetch reads `pc` and memory only. -/
theorem fetch_congr {s t : State} (c : Config) (hpc : t.pc = s.pc) (hmem : t.mem = s.mem) :
    fetch c t = fetch c s := by
  unfold fetch
  rw [hpc, hmem]

/-! ### A word placed under `pc` -/

theorem fetchable_pc_le (s : State) : (fetchable s).pc.toNat + 1 ≤ lastAddr := by
  unfold fetchable
  split
  · exact (by decide : (BitVec.ofNat 16 progBase).toNat + 1 ≤ lastAddr)
  · omega

/-- The word placed is the one fetched (R37, R71). -/
theorem fetch_placeWord (s : State) (op : Word) : fetch Config.machine (placeWord s op) = .ok op := by
  have hpc : (placeWord s op).pc.toNat + 1 ≤ lastAddr := fetchable_pc_le s
  have hhi : Memory.read Config.machine (placeWord s op).mem (placeWord s op).pc.toNat = highByte op :=
    Memory.read_writeBytes_inside _ _ _ (k := 0) (by simp)
  have hlo : Memory.read Config.machine (placeWord s op).mem ((placeWord s op).pc.toNat + 1) = lowByte op :=
    Memory.read_writeBytes_inside _ _ _ (k := 1) (by simp)
  rw [fetch_ok hpc, ← wordOfBytes_eq, hhi, hlo, wordOfBytes_highByte_lowByte]

/-- The decoder reads from the bytes of a table word what it reads from the word. -/
theorem decodeTableWord_eq (nbits w : Nat) :
    decodeTableWord nbits w = decodeWord Config.machine.ext8xy0Fx07 (tableWord nbits w) := by
  simp only [decodeTableWord, decodeBytes, wordOfBytes_highByte_lowByte]
  cases decodeWord Config.machine.ext8xy0Fx07 (tableWord nbits w) <;> rfl

/-- Settles O18: the next fetch gives the table word, whichever way the decoder answers it. -/
theorem placedWordIsRunNext : Obligations.PlacedWordIsRunNext := by
  intro s w _
  have hf : fetch Config.machine (s.withFetchWord 16 w) = .ok (tableWord 16 w) := fetch_placeWord s _
  rw [decodeTableWord_eq]
  exact ⟨fun i hd => step_of_some hf hd, step_of_none hf⟩

/-! ### An unrecognized word (R77) -/

/-- One tick takes 1 from a timer, and a timer at 0 stays there (R170). -/
theorem toNat_tickTimer (b : Byte) : (tickTimer b).toNat = b.toNat - 1 := by
  unfold tickTimer
  split
  · bv_omega
  · omega

/-- Steps that each leave a state as it is leave it so in any number. -/
theorem runEvents_steps_of_fixed {c : Config} {s : State} (h : ∀ rnd, (stepWith c rnd s).1 = s)
    (rnds : List Byte) : runEvents c (rnds.map .step) s = s := by
  induction rnds with
  | nil => rfl
  | cons rnd rnds ih =>
    show runEvents c (rnds.map .step) (stepWith c rnd s).1 = s
    rw [h, ih]

/-- Settles O19: the report comes from `pc` and memory alone, which neither a step that reports nor a tick
nor a key-state write changes. -/
theorem unrecognizedOpcodeChangesNothing : Obligations.UnrecognizedOpcodeChangesNothing := by
  intro c s op hf hd
  have hreport : ∀ t : State, t.pc = s.pc → t.mem = s.mem →
      ∀ rnd, stepWith c rnd t = (t, .unrecognized op) := fun t hpc hmem _ =>
    stepWith_of_none ((fetch_congr c hpc hmem).trans hf) hd
  have hs := hreport s rfl rfl
  exact ⟨hs, runEvents_steps_of_fixed fun rnd => congrArg Prod.fst (hs rnd), hreport s.tick rfl rfl,
    fun k => hreport (s.setKeys k) rfl rfl, toNat_tickTimer s.dt, toNat_tickTimer s.st, fun _ _ => rfl⟩

/-! ### The outcomes of a step (R78) -/

theorem inRange_ne_refused (hi : Nat) (t : State) (r : Refusal) : inRange hi (.next t) ≠ .refused r := by
  unfold inRange
  split <;> exact nofun

theorem withKey_ne_refused (s : State) (x : Reg) (f : Key → State) (r : Refusal) :
    withKey s x (fun k => .next (f k)) ≠ .refused r := by
  unfold withKey
  split <;> exact nofun

/-- Every instruction has a meaning. -/
theorem execWith_ne_refused (c : Config) (rnd : Byte) (i : Instr) (s : State) (r : Refusal) :
    execWith c rnd i s ≠ .refused r := by
  cases i
  case ldB | stRegs | ldRegs => exact inRange_ne_refused _ _ r
  case skp | sknp => exact withKey_ne_refused s _ _ r
  case ret =>
    show execRet s ≠ _
    unfold execRet
    split <;> exact nofun
  case call nnn =>
    show execCall nnn s ≠ _
    unfold execCall
    split <;> exact nofun
  case ldK x =>
    show execLdK x s ≠ _
    unfold execLdK
    split <;> exact nofun
  case drw x y n =>
    show execDrwWith c x y n s ≠ _
    unfold execDrwWith
    split
    · exact nofun
    · exact inRange_ne_refused _ _ r
  all_goals exact nofun

/-- Settles O22: the three cases of a step, where the instruction that runs answers a next state or a
fault. -/
theorem stepOutcomesAreTheSpecs : Obligations.StepOutcomesAreTheSpecs := by
  intro c rnd s
  rcases stepWith_cases c rnd s with ⟨f, -, h⟩ | ⟨op, -, -, h⟩ | ⟨op, i, -, -, h⟩
  · exact .inr (.inr ⟨f, h⟩)
  · exact .inr (.inl ⟨op, h⟩)
  · cases hr : execWith c rnd i s with
    | next t => exact .inl (by rw [h, hr, answerOf_next])
    | fault f => exact .inr (.inr ⟨f, by rw [h, hr, answerOf_fault]⟩)
    | refused r => exact absurd hr (execWith_ne_refused c rnd i s r)

/-! ### The random byte (R79), and fatal outcomes (R76, R158) -/

/-- Only the random instruction reads the random byte. -/
theorem execWith_rnd_congr (c : Config) {i : Instr} (hi : ∀ x kk, i ≠ .rnd x kk) (rnd rnd' : Byte)
    (s : State) : execWith c rnd i s = execWith c rnd' i s := by
  cases i
  case rnd x kk => exact absurd rfl (hi x kk)
  all_goals rfl

/-- Settles O23: neither the fetch nor the decoder has the random byte, and of the instructions only the
random one reads it. -/
theorem onlyRandomDependsOnTheDraw : Obligations.OnlyRandomDependsOnTheDraw := by
  intro c s hr rnd rnd'
  rcases stepWith_cases c rnd s with ⟨f, hf, h⟩ | ⟨op, hf, hd, h⟩ | ⟨op, i, hf, hd, h⟩
  · rw [h, stepWith_of_error hf]
  · rw [h, stepWith_of_none hf hd]
  · have hi : ∀ x kk, i ≠ .rnd x kk := fun x kk hi => hr x kk ((fetches_iff hf).2 (hi ▸ hd))
    rw [h, stepWith_of_some hf hd, execWith_rnd_congr c hi rnd rnd' s]

/-- A fatal outcome leaves the state as it was (R76). -/
theorem stepWith_eq_of_fatal {c : Config} {rnd : Byte} {s : State} {f : Fault}
    (h : (stepWith c rnd s).2 = .fatal f) : stepWith c rnd s = (s, .fatal f) := by
  rcases stepOutcomesAreTheSpecs c rnd s with hok | ⟨op, hu⟩ | ⟨g, hg⟩
  · cases hok.symm.trans h
  · rw [hu] at h
    cases h
  · rw [hg] at h ⊢
    cases h
    rfl

/-- A step with the random instruction is `Ok`, so a fatal one fetched another (R100). -/
theorem not_fetches_rnd_of_fatal {c : Config} {rnd : Byte} {s : State} {f : Fault}
    (h : (stepWith c rnd s).2 = .fatal f) (x : Reg) (kk : Byte) : ¬ Fetches c s (.rnd x kk) := by
  intro hf
  rw [stepWith_of_fetches hf, execWith_rnd] at h
  cases h

/-- Settles O20: a fatal step was not one of the random instruction, so no random byte makes it another. -/
theorem fatalOutcomeKeepsStateAndRepeats : Obligations.FatalOutcomeKeepsStateAndRepeats := by
  intro c rnd s f h
  have hstep := stepWith_eq_of_fatal h
  refine ⟨congrArg Prod.fst hstep, fun rnd' => ?_⟩
  rw [onlyRandomDependsOnTheDraw c s (not_fetches_rnd_of_fatal h) rnd' rnd, hstep]

end Sys2Proof.Machine

/-! PROOFS. Control transfer: the call stack's two instructions and their round trip, the jumps and the
skips (spec/41_control_transfer.md R80 to R87). -/

namespace Sys2Proof.Machine

/-! ### Widening a frame -/

/-- What leaves all but `p` as it was leaves all but more parts as it was. -/
theorem SameExcept.mono {p q : List Part} {s t : State} (h : SameExcept p s t) (hpq : p ⊆ q) :
    SameExcept q s t where
  v hq := h.v (mt (@hpq _) hq)
  i hq := h.i (mt (@hpq _) hq)
  pc hq := h.pc (mt (@hpq _) hq)
  stack hq := h.stack (mt (@hpq _) hq)
  sp hq := h.sp (mt (@hpq _) hq)
  fb hq := h.fb (mt (@hpq _) hq)
  dt hq := h.dt (mt (@hpq _) hq)
  st hq := h.st (mt (@hpq _) hq)
  keys hq := h.keys (mt (@hpq _) hq)
  mem hq := h.mem (mt (@hpq _) hq)
  draws hq := h.draws (mt (@hpq _) hq)

/-! ### Return and call (R80, R82) -/

theorem exec_ret_of_empty {s : State} (h : s.sp.val = 0) : exec .ret s = .fault (.stackUnderflow s.pc) := by
  show execRet s = _
  rw [execRet, State.pop_none s h]
  rfl

theorem exec_ret_of_entry {s : State} {k : Fin 16} (h : s.sp.val = k.val + 1) :
    exec .ret s = .next (({ s with sp := k.castSucc } : State).jump s.stack[k]) := by
  show execRet s = _
  rw [execRet, State.pop_some s h]

theorem exec_call_of_full (nnn : Addr12) {s : State} (h : s.sp.val = 16) :
    exec (.call nnn) s = .fault (.stackOverflow s.pc) := by
  show execCall nnn s = _
  rw [execCall, State.push_none s _ h]
  rfl

theorem exec_call_of_room (nnn : Addr12) {s : State} {k : Fin 16} (h : s.sp.val = k.val) :
    exec (.call nnn) s = .next
      (({ s with stack := s.stack.set k (s.pc + instrWidth), sp := k.succ } : State).jump (targetOf nnn)) := by
  show execCall nnn s = _
  rw [execCall, State.push_some s _ h]

/-- A jump target as the number its digits stand for. -/
theorem targetOf_eq_ofNat (nnn : Addr12) : targetOf nnn = BitVec.ofNat 16 nnn.toNat := by
  rw [← toNat_targetOf, BitVec.ofNat_toNat, BitVec.setWidth_eq]

/-- Settles O26: the two cases of the pop; the frame is that of every return. -/
theorem returnPopsIntoPc : Obligations.ReturnPopsIntoPc := by
  refine ⟨isWordOf_of_encode rfl rfl, fun s => ⟨exec_ret_of_empty, fun k hk => ?_⟩⟩
  have hexec := exec_ret_of_entry hk
  exact ⟨_, hexec, rfl, rfl, (exec_frame hexec).mono (by simp [writtenParts])⟩

/-- Settles O28: the two cases of the push; the frame is that of every call, and of the stack only the
entry pushed differs. -/
theorem callPushesReturnAddress : Obligations.CallPushesReturnAddress := by
  intro nnn s
  refine ⟨isWordOf_of_encode (ofNat_formatA rfl).symm rfl, exec_call_of_full nnn, fun k hk => ?_⟩
  have hexec := exec_call_of_room nnn hk
  refine ⟨_, hexec, ?pushed, fun j hj => ?kept, rfl, targetOf_eq_ofNat nnn,
    (exec_frame hexec).mono (by simp [writtenParts])⟩
  case pushed => exact Vector.getElem_set_self _
  case kept => exact Vector.getElem_set_ne k.isLt _ fun h => hj (Fin.ext h.symm)

/-- Settles O29: the entry that the return pops is the one that the call pushed. -/
theorem callThenReturnResumesAfterCall : Obligations.CallThenReturnResumesAfterCall := by
  intro nnn s t u h hsp hstack
  obtain ⟨k, hk, -⟩ := execCall_next h
  obtain ⟨-, -, hcall⟩ := callPushesReturnAddress nnn s
  obtain ⟨-, hret⟩ := returnPopsIntoPc.2 u
  obtain ⟨t', ht', hpushed, -, htsp, -, -⟩ := hcall k hk
  cases h.symm.trans ht'
  obtain ⟨w, hw, hwpc, hwsp, hframe⟩ := hret k (hsp ▸ htsp)
  have hpopped : w.pc = s.pc + 2 := calc
    w.pc = u.stack[k] := hwpc
    _ = t.stack[k] := hstack k (htsp ▸ Nat.lt_succ_self _)
    _ = s.pc + 2 := hpushed
  exact ⟨w, hw, hpopped, Fin.ext (hwsp.trans hk.symm), hframe⟩

/-! ### Jumps and skips (R81, R83 to R87) -/

/-- An instruction that answers a jump sets `pc` and nothing else. -/
theorem onlySetsPc_of_jump {i : Instr} {s : State} {target : Word} (h : exec i s = .next (s.jump target)) :
    OnlySetsPc i s target :=
  ⟨_, h, rfl, by apply SameExcept.of_fields <;> simp⟩

/-- An instruction that answers a conditional skip sets `pc` and nothing else (R73). -/
theorem onlySetsPc_of_skipIf {i : Instr} {s : State} {b : Bool} {p : Prop} [Decidable p]
    (h : exec i s = .next (s.skipIf b)) (hb : b = true ↔ p) :
    OnlySetsPc i s (s.pc + if p then 4 else 2) := by
  refine ⟨_, h, ?_, by apply SameExcept.of_fields <;> simp⟩
  simp only [State.skipIf_pc, hb]

section skips
variable {i : Instr} {s : State} {a b : Byte}

/-- A skip on equal bytes, compared as numbers. -/
theorem onlySetsPc_of_skipIf_beq (h : exec i s = .next (s.skipIf (a == b))) :
    OnlySetsPc i s (s.pc + if a.toNat = b.toNat then 4 else 2) :=
  onlySetsPc_of_skipIf h (beq_iff_eq.trans BitVec.toNat_inj.symm)

/-- A skip on different bytes, compared as numbers. -/
theorem onlySetsPc_of_skipIf_bne (h : exec i s = .next (s.skipIf (a != b))) :
    OnlySetsPc i s (s.pc + if a.toNat = b.toNat then 2 else 4) := by
  have hb : (a != b) = true ↔ ¬ a.toNat = b.toNat := bne_iff_ne.trans (not_congr BitVec.toNat_inj.symm)
  simpa only [ite_not] using onlySetsPc_of_skipIf h hb

end skips

/-- Settles O27: a jump to the zero-extended address, with no condition on it. -/
theorem jumpSetsPcAbsolute : Obligations.JumpSetsPcAbsolute := by
  intro nnn s
  refine ⟨isWordOf_of_encode (ofNat_formatA rfl).symm rfl, ?_⟩
  rw [← targetOf_eq_ofNat]
  exact onlySetsPc_of_jump rfl

/-- Settles O30: the two skips on the comparison of a register with the immediate. -/
theorem skipsOnImmediate : Obligations.SkipsOnImmediate := fun _ _ _ =>
  ⟨isWordOf_of_encode (ofNat_formatXK rfl).symm rfl, isWordOf_of_encode (ofNat_formatXK rfl).symm rfl,
    onlySetsPc_of_skipIf_beq rfl, onlySetsPc_of_skipIf_bne rfl⟩

/-- Settles O31: the two skips on the comparison of two registers. -/
theorem skipsOnRegister : Obligations.SkipsOnRegister := fun _ _ _ =>
  ⟨isWordOf_of_encode (ofNat_formatXYN rfl).symm rfl, isWordOf_of_encode (ofNat_formatXYN rfl).symm rfl,
    onlySetsPc_of_skipIf_beq rfl, onlySetsPc_of_skipIf_bne rfl⟩

/-- Settles O32: the sum of the two zero-extended operands does not wrap. -/
theorem jumpWithOffsetAddsV0 : Obligations.JumpWithOffsetAddsV0 := by
  intro nnn s
  have hsum : BitVec.ofNat 16 (nnn.toNat + (s.readV 0).toNat) = targetOf nnn + zextByte (s.readV 0) := by
    rw [← toNat_targetOf_add_zextByte, BitVec.ofNat_toNat, BitVec.setWidth_eq]
  refine ⟨isWordOf_of_encode (ofNat_formatA rfl).symm rfl, ?_, ?bound⟩
  · rw [hsum]
    exact onlySetsPc_of_jump rfl
  case bound =>
    have hnnn := nnn.isLt
    have hv0 := (s.readV 0).isLt
    omega

end Sys2Proof.Machine

/-! PROOFS. Register load, arithmetic, logic, shifts and the random instruction: the 8-bit operations as
arithmetic of numbers, the result of an instruction that writes a register and the flag, and the
statements about the instructions (spec/42_register_alu.md R90 to R101). -/

namespace Sys2Proof.Machine

/-! ### The 8-bit operations as numbers (R101) -/

theorem toNat_flagByte (b : Bool) : (flagByte b).toNat = b.toNat := by
  cases b <;> rfl

theorem toNat_flagByte_decide (p : Prop) [Decidable p] :
    (flagByte (decide p)).toNat = if p then 1 else 0 := by
  by_cases h : p <;> simp [toNat_flagByte, h]

theorem toNat_addBytes (a b : Byte) : (addBytes a b).toNat = (a.toNat + b.toNat) % 256 :=
  BitVec.toNat_ofNat _ 8

theorem toNat_carryFlag (a b : Byte) :
    (carryFlag a b).toNat = if a.toNat + b.toNat > 255 then 1 else 0 := toNat_flagByte_decide _

/-- Without a borrow the difference itself; with one, 256 more (R101 (b)). -/
theorem toNat_subBytes (a b : Byte) :
    (subBytes a b).toNat = if a.toNat ≥ b.toNat then a.toNat - b.toNat else a.toNat + 256 - b.toNat := by
  have hmod : (subBytes a b).toNat = (a.toNat + 256 - b.toNat) % 256 := BitVec.toNat_ofNat _ 8
  have ha := a.isLt
  have hb := b.isLt
  split <;> omega

theorem toNat_noBorrowFlag (a b : Byte) :
    (noBorrowFlag a b).toNat = if a.toNat ≥ b.toNat then 1 else 0 := toNat_flagByte_decide _

theorem toNat_shiftRight (a : Byte) : (shiftRight a).toNat = a.toNat / 2 := by
  rw [shiftRight, BitVec.toNat_ushiftRight, Nat.shiftRight_eq_div_pow, pow_one]

theorem toNat_shiftLeft (a : Byte) : (shiftLeft a).toNat = 2 * a.toNat % 256 := by
  rw [shiftLeft, BitVec.toNat_shiftLeft, Nat.shiftLeft_eq, pow_one, Nat.mul_comm]

/-- A bit as a flag is its digit in the number. -/
theorem toNat_flagByte_getLsbD (a : Byte) (k : Nat) :
    (flagByte (a.getLsbD k)).toNat = a.toNat / 2 ^ k % 2 := by
  rw [toNat_flagByte, BitVec.getLsbD, Nat.toNat_testBit]

theorem toNat_shiftedOutRight (a : Byte) : (shiftedOutRight a).toNat = a.toNat % 2 := by
  rw [shiftedOutRight, toNat_flagByte_getLsbD, pow_zero, Nat.div_one]

theorem toNat_shiftedOutLeft (a : Byte) : (shiftedOutLeft a).toNat = a.toNat / 128 := by
  have ha := a.isLt
  have hbit : (shiftedOutLeft a).toNat = a.toNat / 128 % 2 := toNat_flagByte_getLsbD a 7
  omega

/-! ### Words of group `8`, and instructions that write a register and the flag -/

/-- The digits `8xyn` are a word of the instruction that encodes with the low digit `n` (R55). -/
theorem isWordOf_group8 {n : BitVec 4} {x y : Reg} {i : Instr} (h : encode i = formatXYN 0x8 x y n)
    (hi : i.isExtension = false) : IsWordOf (0x8000 + n.toNat + 0x100 * x.val + 0x10 * y.val) i := by
  refine isWordOf_of_encode (h.trans (ofNat_formatXYN ?_).symm) hi
  show _ = 0x8000 + 0x100 * x.val + 0x10 * y.val + n.toNat
  omega

/-- `V[x] <- b`, `VF <- flag` and on to the next instruction changes `V` and `pc` only. -/
theorem sameExcept_writeVFlag_advance (s : State) (x : Reg) (b flag : Byte) :
    SameExcept [.v, .pc] s (s.writeVFlag x b flag).advance := by
  apply SameExcept.of_fields <;> simp

/-- An instruction that answers `V[x] <- b; VF <- flag; pc <- pc + 2` sets the register `x` and the flag. -/
theorem setsRegisterAndFlag_of_exec {i : Instr} {s : State} {x : Reg} {b flag : Byte}
    (h : exec i s = .next (s.writeVFlag x b flag).advance) :
    SetsRegisterAndFlag i s x b.toNat flag.toNat :=
  ⟨_, h, fun hx => congrArg BitVec.toNat (State.readV_writeVFlag_result s b flag hx),
    congrArg BitVec.toNat (State.readV_writeVFlag_flag s x b flag),
    fun _ hr hf => State.readV_writeVFlag_other s b flag hr hf, rfl,
    sameExcept_writeVFlag_advance s x b flag⟩

/-! ### Loads and addition of an immediate (R90, R91) -/

/-- Settles O33: the register written is the named one, and the byte the immediate. -/
theorem loadImmediateIsExact : Obligations.LoadImmediateIsExact := fun _ _ _ =>
  ⟨isWordOf_of_encode (ofNat_formatXK rfl).symm rfl, setsRegister_of_exec rfl⟩

/-- Settles O34: the register written is the named one, and the byte the wrapped sum. -/
theorem addImmediateWrapsWithoutFlag : Obligations.AddImmediateWrapsWithoutFlag := by
  intro x kk s
  refine ⟨isWordOf_of_encode (ofNat_formatXK rfl).symm rfl, ?_⟩
  rw [← toNat_addBytes]
  exact setsRegister_of_exec rfl

/-! ### Logic (R92 to R94) -/

/-- Settles O35: the bytes written are the bitwise operations on the two registers. -/
theorem logicActsOnEachBit : Obligations.LogicActsOnEachBit := fun x y s =>
  ⟨isWordOf_group8 (n := 0x1) rfl rfl, isWordOf_group8 (n := 0x2) rfl rfl,
    isWordOf_group8 (n := 0x3) rfl rfl,
    s.readV x ||| s.readV y, s.readV x &&& s.readV y, s.readV x ^^^ s.readV y,
    fun _ _ => ⟨BitVec.getLsbD_or, BitVec.getLsbD_and, BitVec.getLsbD_xor⟩,
    setsRegister_of_exec rfl, setsRegister_of_exec rfl, setsRegister_of_exec rfl⟩

/-! ### Arithmetic with a flag (R95, R96, R98) -/

/-- Settles O36: the byte written is the wrapped sum, and the flag, written last, the carry. -/
theorem addRegisterSetsCarry : Obligations.AddRegisterSetsCarry := by
  intro x y s
  refine ⟨isWordOf_group8 (n := 0x4) rfl rfl, ?_⟩
  rw [← toNat_addBytes, ← toNat_carryFlag]
  exact setsRegisterAndFlag_of_exec rfl

/-- Settles O37: one subtraction with its no-borrow flag, the operands in either order. -/
theorem subtractionsSetNoBorrow : Obligations.SubtractionsSetNoBorrow := by
  intro x y s
  refine ⟨isWordOf_group8 (n := 0x5) rfl rfl, isWordOf_group8 (n := 0x7) rfl rfl, ?_⟩
  simp only [← toNat_subBytes, ← toNat_noBorrowFlag]
  exact ⟨setsRegisterAndFlag_of_exec rfl, setsRegisterAndFlag_of_exec rfl⟩

/-! ### Shifts (R97, R99) -/

/-- Settles O38: both shifts read `V[x]` alone, and the bit shifted out is bit 0, or bit 7. -/
theorem shiftsSetTheBitShiftedOut : Obligations.ShiftsSetTheBitShiftedOut := by
  intro x y s
  refine ⟨isWordOf_group8 (n := 0x6) rfl rfl, isWordOf_group8 (n := 0xE) rfl rfl, ?_⟩
  rw [← toNat_shiftRight, ← toNat_shiftedOutRight, ← toNat_shiftLeft, ← toNat_shiftedOutLeft]
  exact ⟨setsRegisterAndFlag_of_exec rfl, setsRegisterAndFlag_of_exec rfl⟩

/-! ### The random instruction (R100) -/

/-- Every bit of the register written is the and of the bits of the random byte and the mask. -/
theorem State.getLsbD_readV_masked_same (s : State) (rnd : Byte) (x : Reg) (kk : Byte) (k : Nat) :
    ((s.masked rnd x kk).readV x).getLsbD k = (rnd.getLsbD k && kk.getLsbD k) := by
  rw [State.readV_masked, if_pos rfl, BitVec.getLsbD_and]

theorem State.readV_masked_other (s : State) (rnd : Byte) {x r : Reg} (kk : Byte) (h : r ≠ x) :
    (s.masked rnd x kk).readV r = s.readV r := by
  rw [State.readV_masked, if_neg h]

/-- Settles O39: the state answered is the masked one, with the counter moved on where the model draws the
byte itself. -/
theorem randomMasksTheDraw : Obligations.RandomMasksTheDraw := by
  intro x kk s
  refine ⟨isWordOf_of_encode (ofNat_formatXK rfl).symm rfl, ⟨_, exec_rnd x kk s, ?drawn⟩,
    fun rnd => ⟨_, execWith_rnd _ rnd x kk s, ?given⟩⟩
  case drawn =>
    exact ⟨fun k _ => State.getLsbD_readV_masked_same s _ x kk k,
      fun _ hr => State.readV_masked_other s _ kk hr, rfl, rfl, exec_frame (exec_rnd x kk s)⟩
  case given =>
    exact ⟨fun k _ => State.getLsbD_readV_masked_same s rnd x kk k,
      fun _ hr => State.readV_masked_other s rnd kk hr, rfl, sameExcept_writeV_advance s x (rnd &&& kk)⟩

end Sys2Proof.Machine

/-! PROOFS. The index register and the memory instructions: the values written as numbers, what is read
where a block was stored or loaded, and the statements about the instructions
(spec/43_index_memory.md R110 to R115). -/

namespace Sys2Proof.Machine

/-- The digits `Fxkk` are a word of the instruction that encodes with the low byte `kk` (R55). -/
theorem isWordOf_groupF {kk : Byte} {x : Reg} {i : Instr} (h : encode i = formatXK 0xF x kk)
    (hi : i.isExtension = false) : IsWordOf (0xF000 + kk.toNat + 0x100 * x.val) i := by
  refine isWordOf_of_encode (h.trans (ofNat_formatXK ?_).symm) hi
  show _ = 0xF000 + 0x100 * x.val + kk.toNat
  omega

/-- A number that fits the width is the value of its word. -/
theorem toNat_ofNat_of_fits {w n : Nat} (h : n < 2 ^ w) : (BitVec.ofNat w n).toNat = n := by
  rw [BitVec.toNat_ofNat, Nat.mod_eq_of_lt h]

/-! ### The index register (R110 to R112) -/

/-- `I` past a register's value wraps at 16 bits (R111). -/
theorem toNat_add_zextByte (a : Word) (b : Byte) :
    (a + zextByte b).toNat = (a.toNat + b.toNat) % 65536 := by
  have hb := b.isLt
  rw [BitVec.toNat_add, zextByte, BitVec.toNat_setWidth, Nat.mod_eq_of_lt (a := b.toNat) (by omega)]

/-- The last glyph of the highest font starts at `0x1FB` (R4, R112). -/
theorem fontBase_add_lowDigit_le (c : Config) (b : Byte) :
    c.fontBase.val + 5 * (b.toNat % 16) ≤ 0x1FB := by
  have hbase := c.fontBase.isLt
  omega

theorem toNat_glyphAddr_lowDigit (c : Config) (b : Byte) :
    (glyphAddr c (lowDigit b)).toNat = c.fontBase.val + 5 * (b.toNat % 16) :=
  toNat_ofNat_of_fits ((fontBase_add_lowDigit_le c b).trans_lt (by decide))

/-- `I <- a` and on to the next instruction changes `I` and `pc` only. -/
theorem sameExcept_writeI_advance (s : State) (a : Word) :
    SameExcept [.i, .pc] s (s.writeI a).advance := by
  apply SameExcept.of_fields <;> simp

/-- Settles O40: the address written is the target a jump would have. -/
theorem setIndexIsDirect : Obligations.SetIndexIsDirect := fun nnn s =>
  ⟨isWordOf_of_encode (ofNat_formatA rfl).symm rfl, _, rfl, toNat_targetOf nnn, rfl,
    sameExcept_writeI_advance s _⟩

/-- Settles O41: the sum wraps, and the registers are in the frame. -/
theorem addIndexWrapsWithoutFlag : Obligations.AddIndexWrapsWithoutFlag := fun x s =>
  ⟨isWordOf_groupF (kk := 0x1E) rfl rfl, _, rfl, toNat_add_zextByte s.i (s.readV x), rfl,
    sameExcept_writeI_advance s _⟩

/-- Settles O42: the glyph's address does not wrap, since the base is an admissible one. -/
theorem fontAddressIsBasePlusFiveDigits : Obligations.FontAddressIsBasePlusFiveDigits := by
  intro x s
  have haddr := toNat_glyphAddr_lowDigit Config.machine (s.readV x)
  exact ⟨isWordOf_groupF (kk := 0x29) rfl rfl, _, rfl, haddr,
    haddr.trans_le (fontBase_add_lowDigit_le _ _), rfl, sameExcept_writeI_advance s _⟩

/-! ### Storing a block from `I` on (R113, R114) -/

/-- The state after an instruction that stores the bytes `bs` from `I` on. -/
def State.stored (s : State) (bs : List Byte) : State :=
  { s with mem := Memory.writeBytes Config.machine s.mem (s.dataAddr 0) bs }.advance

theorem exec_ldB_of_le {x : Reg} {s : State} (h : s.dataAddr 2 ≤ lastAddr) :
    exec (.ldB x) s = .next (s.stored (bcdDigits (s.readV x))) := inRange_of_le h _

theorem exec_stRegs_of_le {x : Reg} {s : State} (h : s.dataAddr x.val ≤ lastAddr) :
    exec (.stRegs x) s = .next (s.stored (s.firstRegs x)) := inRange_of_le h _

theorem State.readMem_stored_inside (s : State) {bs : List Byte} {k : Nat} (h : k < bs.length) :
    (s.stored bs).readMem (s.dataAddr k) = bs[k] :=
  Memory.read_writeBytes_inside Config.machine s.mem (s.dataAddr 0) h

theorem State.readMem_stored_outside (s : State) {bs : List Byte} {a : Nat}
    (h : ∀ k, k < bs.length → a ≠ s.dataAddr k) : (s.stored bs).readMem a = s.readMem a := by
  refine Memory.read_writeBytes_outside Config.machine s.mem (s.dataAddr 0) ?_
  have hk := h (a - s.i.toNat)
  simp only [State.dataAddr] at hk ⊢
  omega

/-- Settles O43: the range check decides, and the three bytes stored are the digits. -/
theorem bcdStoresThreeDigits : Obligations.BcdStoresThreeDigits := by
  intro x s
  refine ⟨isWordOf_groupF (kk := 0x33) rfl rfl, fun h => inRange_of_gt h _, fun h => ?_⟩
  have hexec := exec_ldB_of_le (x := x) h
  have hlt := (s.readV x).isLt
  have hbyte (k : Nat) (hk : k < 3) :
      (s.stored (bcdDigits (s.readV x))).readMem (s.dataAddr k) = (bcdDigits (s.readV x))[k]'hk :=
    s.readMem_stored_inside hk
  refine ⟨_, hexec, ?hundreds, ?tens, ?ones, fun a h0 h1 h2 => s.readMem_stored_outside ?others, rfl,
    exec_frame hexec⟩
  case hundreds =>
    rw [hbyte 0 (by decide)]
    exact toNat_ofNat_of_fits (by omega)
  case tens =>
    rw [hbyte 1 (by decide)]
    exact toNat_ofNat_of_fits (by omega)
  case ones =>
    rw [hbyte 2 (by decide)]
    exact toNat_ofNat_of_fits (by omega)
  case others =>
    rintro (_ | _ | _ | k) hk
    · exact h0
    · exact h1
    · exact h2
    · exact absurd hk (by simp [bcdDigits])

/-- Settles O44: the range check decides, and the bytes stored are those of the registers up to `x`. -/
theorem blockStoreIsInclusive : Obligations.BlockStoreIsInclusive := by
  intro x s
  refine ⟨isWordOf_groupF (kk := 0x55) rfl rfl, fun h => inRange_of_gt h _, fun h => ?_⟩
  have hexec := exec_stRegs_of_le (x := x) h
  refine ⟨_, hexec, fun k hk => readMem_of_execStRegs hexec hk,
    fun a ha => s.readMem_stored_outside fun k hk => ?outside, rfl, exec_frame hexec⟩
  case outside =>
    have hkx : k < x.val + 1 := length_firstRegs s x ▸ hk
    exact ha ⟨k, by omega⟩ (Nat.le_of_lt_succ hkx)

/-! ### Loading a block from `I` on (R115) -/

/-- The state after an instruction that loads the first `n` registers from `I` on. -/
def State.loaded (s : State) (n : Nat) : State :=
  (s.writeFirstRegs (Memory.readBytes Config.machine s.mem (s.dataAddr 0) n)).advance

theorem exec_ldRegs_of_le {x : Reg} {s : State} (h : s.dataAddr x.val ≤ lastAddr) :
    exec (.ldRegs x) s = .next (s.loaded (x.val + 1)) := inRange_of_le h _

theorem State.readV_loaded (s : State) (n : Nat) (r : Reg) :
    (s.loaded n).readV r = if r.val < n then s.readMem (s.dataAddr r.val) else s.readV r := by
  rw [State.loaded, State.readV_advance, State.readV_writeFirstRegs, Memory.getElem?_readBytes]
  split <;> rfl

/-- Settles O45: the range check decides, and the registers loaded are those up to `x`. -/
theorem blockLoadIsInclusive : Obligations.BlockLoadIsInclusive := by
  intro x s
  refine ⟨isWordOf_groupF (kk := 0x65) rfl rfl, fun h => inRange_of_gt h _, fun h => ?_⟩
  have hexec := exec_ldRegs_of_le (x := x) h
  refine ⟨_, hexec, fun k hk => ?loaded, fun k hk => ?kept, rfl, exec_frame hexec⟩
  case loaded => rw [State.readV_loaded, if_pos (Nat.lt_succ_of_le hk)]
  case kept => rw [State.readV_loaded, if_neg (Nat.not_lt_of_le hk)]

end Sys2Proof.Machine

/-! PROOFS. The display: clearing the screen, and a sprite drawn once and twice, from the dots it is made
of (spec/44_display.md R120 to R123; spec/95_test_vectors.md S6). -/

namespace Sys2Proof.Machine

/-! ### Clearing (R120) -/

/-- Settles O48: the framebuffer answered is the blank one. -/
theorem clearUnlightsEveryPixel : Obligations.ClearUnlightsEveryPixel := by
  refine ⟨isWordOf_of_encode rfl rfl, fun s => ?_⟩
  have hexec : exec .cls s = .next { s with fb := Framebuffer.blank }.advance := rfl
  exact ⟨_, hexec, Framebuffer.pixel_blank, rfl, exec_frame hexec⟩

/-! ### Dots blended twice -/

/-- The dots of a sprite blended a second time take every pixel back (R121, corner case (g)). -/
theorem blendDots_twice_pixel {ds : List Dot} (hn : (ds.map Dot.place).Nodup) (acc : Framebuffer × Bool)
    (b : Bool) (px : Col) (py : Row) :
    (blendDots ((blendDots acc ds).1, b) ds).1.pixel px py = acc.1.pixel px py := by
  by_cases h : ∃ d ∈ ds, d.place = (px, py)
  · obtain ⟨d, hd, hplace⟩ := h
    cases hplace
    rw [blendDots_pixel_inside hd hn, blendDots_pixel_inside hd hn, Bool.xor_assoc, Bool.xor_self,
      Bool.xor_false]
  · have hout : ∀ d ∈ ds, d.place ≠ (px, py) := fun d hd he => h ⟨d, hd, he⟩
    rw [blendDots_pixel_outside hout, blendDots_pixel_outside hout]

/-! ### The sprite at `I` and its dots (R121 to R123) -/

section sprite
variable (s : State) (x y : Reg) (n : Height)

/-- The `n` rows of the sprite at `I`. -/
def State.spriteRows : List Byte := Memory.readBytes Config.machine s.mem (s.dataAddr 0) n.val

/-- The dots of the sprite at `I` drawn at the place the two registers hold. -/
def State.spriteDotsAt : List Dot :=
  spriteDots (startCol (s.readV x)) (startRow (s.readV y)) 0 (s.spriteRows n)

/-- The bit at row `r` and column `c` of the sprite, at its own wrapped place. -/
def State.spriteDot (r c : Nat) : Dot :=
  (wrapCol ((s.readV x).toNat + c), wrapRow ((s.readV y).toNat + r),
    (s.readMem (s.dataAddr r)).getLsbD (7 - c))

/-- The state after DRW. -/
def State.drawn : State := drawAt x y (s.spriteRows n) s

theorem wrapCol_startCol_add (b : Byte) (k : Nat) : wrapCol ((startCol b).val + k) = wrapCol (b.toNat + k) :=
  Fin.ext (Nat.mod_add_mod _ _ _)

theorem wrapRow_startRow_add (b : Byte) (k : Nat) : wrapRow ((startRow b).val + k) = wrapRow (b.toNat + k) :=
  Fin.ext (Nat.mod_add_mod _ _ _)

@[simp] theorem State.length_spriteRows : (s.spriteRows n).length = n.val := Memory.length_readBytes _ _ _ _

theorem State.getElem_spriteRows {r : Nat} (h : r < (s.spriteRows n).length) :
    (s.spriteRows n)[r] = s.readMem (s.dataAddr r) := by
  have hr := s.length_spriteRows n ▸ h
  apply Option.some.inj
  rw [← List.getElem?_eq_getElem h, State.spriteRows, Memory.getElem?_readBytes, if_pos hr]
  rfl

variable {s x y n}

/-- The dots are one for each row of the sprite and each column of it. -/
theorem State.mem_spriteDotsAt {d : Dot} :
    d ∈ s.spriteDotsAt x y n ↔ ∃ r c, r < n.val ∧ c < 8 ∧ d = s.spriteDot x y r c := by
  simp only [State.spriteDotsAt, mem_spriteDots, State.getElem_spriteRows, wrapCol_startCol_add,
    wrapRow_startRow_add, State.length_spriteRows, exists_prop, Nat.zero_add, State.spriteDot]

theorem State.spriteDot_mem {r c : Nat} (hr : r < n.val) (hc : c < 8) :
    s.spriteDot x y r c ∈ s.spriteDotsAt x y n := State.mem_spriteDotsAt.2 ⟨r, c, hr, hc, rfl⟩

theorem State.spriteDotsAt_nodup : ((s.spriteDotsAt x y n).map Dot.place).Nodup := by
  refine spriteDots_nodup _ _ _ ?_
  rw [State.length_spriteRows]
  omega

/-! ### The state after DRW -/

theorem State.drawn_fb : (s.drawn x y n).fb = (blendDots (s.fb, false) (s.spriteDotsAt x y n)).1 :=
  congrArg Prod.fst (drawSprite_eq _ _ _ _)

theorem State.readV_drawn_other {r : Reg} (h : r ≠ regF) : (s.drawn x y n).readV r = s.readV r :=
  State.readV_writeV_other _ _ h

theorem flagByte_eq_one_iff (b : Bool) : flagByte b = 1 ↔ b = true := by
  cases b <;> decide

/-- `VF` is the collision flag, which the dots decide (R121). -/
theorem State.readV_drawn_flag : (s.drawn x y n).readV regF =
    flagByte ((s.spriteDotsAt x y n).any fun d => d.2.2 && s.fb.pixel d.1 d.2.1) := by
  have hflag : (s.drawn x y n).readV regF =
      flagByte (drawSprite s.fb (startCol (s.readV x)) (startRow (s.readV y)) (s.spriteRows n)).2 :=
    State.readV_writeV_same _ _ _
  rw [hflag, drawSprite_eq, ← State.spriteDotsAt, blendDots_hit State.spriteDotsAt_nodup, Bool.false_or]

/-- `VF` is 1 iff some bit of the sprite is set and its pixel was lit. -/
theorem State.readV_drawn_flag_eq_one_iff : (s.drawn x y n).readV regF = 1 ↔ ∃ r c, r < n.val ∧ c < 8 ∧
    (s.spriteDot x y r c).2.2 = true ∧ s.fb.pixel (s.spriteDot x y r c).1 (s.spriteDot x y r c).2.1 = true := by
  rw [State.readV_drawn_flag, flagByte_eq_one_iff, List.any_eq_true]
  constructor
  · rintro ⟨d, hd, hhit⟩
    obtain ⟨r, c, hr, hc, rfl⟩ := State.mem_spriteDotsAt.1 hd
    exact ⟨r, c, hr, hc, Bool.and_eq_true_iff.1 hhit⟩
  · rintro ⟨r, c, hr, hc, hhit⟩
    exact ⟨_, State.spriteDot_mem hr hc, Bool.and_eq_true_iff.2 hhit⟩

/-- The pixel a bit of the sprite meets. -/
theorem State.pixel_drawn_inside {r c : Nat} (hr : r < n.val) (hc : c < 8) :
    (s.drawn x y n).fb.pixel (s.spriteDot x y r c).1 (s.spriteDot x y r c).2.1 =
      (s.fb.pixel (s.spriteDot x y r c).1 (s.spriteDot x y r c).2.1 ^^ (s.spriteDot x y r c).2.2) := by
  rw [State.drawn_fb, blendDots_pixel_inside (State.spriteDot_mem hr hc) State.spriteDotsAt_nodup]

/-- A pixel no bit of the sprite meets. -/
theorem State.pixel_drawn_outside {px : Col} {py : Row}
    (h : ∀ r c, r < n.val → c < 8 → (s.spriteDot x y r c).place ≠ (px, py)) :
    (s.drawn x y n).fb.pixel px py = s.fb.pixel px py := by
  rw [State.drawn_fb, blendDots_pixel_outside]
  intro d hd
  obtain ⟨r, c, hr, hc, rfl⟩ := State.mem_spriteDotsAt.1 hd
  exact h r c hr hc

/-- DRW leaves the sprite, and the registers of its place when neither is `VF`. -/
theorem State.spriteDot_drawn (hx : x ≠ regF) (hy : y ≠ regF) (r c : Nat) :
    (s.drawn x y n).spriteDot x y r c = s.spriteDot x y r c := by
  rw [State.spriteDot, State.readV_drawn_other hx, State.readV_drawn_other hy]
  rfl

theorem State.spriteDotsAt_drawn (hx : x ≠ regF) (hy : y ≠ regF) :
    (s.drawn x y n).spriteDotsAt x y n = s.spriteDotsAt x y n := by
  rw [State.spriteDotsAt, State.readV_drawn_other hx, State.readV_drawn_other hy]
  rfl

/-! ### What DRW answers -/

theorem State.dataAddr_lastRow (hn : n.val ≥ 1) : s.i.toNat + n.val - 1 = s.dataAddr (n.val - 1) :=
  Nat.add_sub_assoc hn _

theorem exec_drw_eq : exec (.drw x y n) s =
    if n.val = 0 then .next (s.drawn x y n) else inRange (s.dataAddr (n.val - 1)) (.next (s.drawn x y n)) := by
  show execDrwWith _ x y n s = _
  unfold execDrwWith
  split
  · rw [State.drawn, State.spriteRows, ‹n.val = 0›]
    rfl
  · rfl

theorem exec_drw_of_le (h : n.val = 0 ∨ s.dataAddr (n.val - 1) ≤ lastAddr) :
    exec (.drw x y n) s = .next (s.drawn x y n) := by
  rw [exec_drw_eq]
  split
  · rfl
  · exact inRange_of_le (h.resolve_left ‹_›) _

theorem exec_drw_of_gt (hn : n.val ≠ 0) (h : lastAddr < s.dataAddr (n.val - 1)) :
    exec (.drw x y n) s = .fault (.addressOutOfRange (s.dataAddr (n.val - 1))) := by
  rw [exec_drw_eq, if_neg hn, inRange_of_gt h]

theorem exec_drw_next {t : State} (h : exec (.drw x y n) s = .next t) :
    (n.val = 0 ∨ s.dataAddr (n.val - 1) ≤ lastAddr) ∧ t = s.drawn x y n := by
  rw [exec_drw_eq] at h
  split at h
  · cases h
    exact ⟨.inl ‹_›, rfl⟩
  · obtain ⟨hle, h⟩ := inRange_next h
    cases h
    exact ⟨.inr hle, rfl⟩

end sprite

/-- Settles O49: the range check decides, and the pixels and the flag are those of the sprite's dots. -/
theorem drawBlendsEveryBitAtItsWrappedPixel : Obligations.DrawBlendsEveryBitAtItsWrappedPixel := by
  intro x y n s
  refine ⟨isWordOf_of_encode (ofNat_formatXYN rfl).symm rfl, fun hn h => ?fault, fun h => ?next⟩
  case fault =>
    rw [State.dataAddr_lastRow hn] at h ⊢
    exact exec_drw_of_gt (Nat.ne_of_gt hn) h
  case next =>
    have hexec : exec (.drw x y n) s = .next (s.drawn x y n) := by
      refine exec_drw_of_le (or_iff_not_imp_left.2 fun hn => ?_)
      rw [← State.dataAddr_lastRow (Nat.pos_of_ne_zero hn)]
      exact h.resolve_left hn
    refine ⟨_, hexec, ?inside, ?outside, ?binary, ?flag, fun r hr => State.readV_drawn_other hr, rfl,
      exec_frame hexec⟩
    case inside =>
      intro r c px py hr hc hpx hpy
      obtain rfl : px = wrapCol _ := Fin.ext hpx
      obtain rfl : py = wrapRow _ := Fin.ext hpy
      exact State.pixel_drawn_inside hr hc
    case outside =>
      intro px py hout
      refine State.pixel_drawn_outside fun r c hr hc he => hout r c hr hc ?_
      cases he
      exact ⟨rfl, rfl⟩
    case binary =>
      rw [State.readV_drawn_flag]
      exact (flagByte_zero_or_one _).symm
    case flag =>
      rw [State.readV_drawn_flag_eq_one_iff]
      constructor
      · rintro ⟨r, c, hr, hc, hbit, hlit⟩
        exact ⟨r, c, _, _, hr, hc, rfl, rfl, hbit, hlit⟩
      · rintro ⟨r, c, px, py, hr, hc, hpx, hpy, hbit, hlit⟩
        obtain rfl : px = wrapCol _ := Fin.ext hpx
        obtain rfl : py = wrapRow _ := Fin.ext hpy
        exact ⟨r, c, hr, hc, hbit, hlit⟩

/-- Settles O50: with `x` and `y` other than `VF` both draws have the same dots; on a blank screen a set
bit lights its pixel in the first draw and meets it lit in the second. -/
theorem drawingTwiceRestoresTheScreen : Obligations.DrawingTwiceRestoresTheScreen := by
  intro x y n s t hx hy h
  obtain ⟨hrange, rfl⟩ := exec_drw_next h
  refine ⟨_, exec_drw_of_le hrange, ?restored, fun hblank => ⟨?first, ?second⟩⟩
  case restored =>
    intro px py
    rw [State.drawn_fb, State.spriteDotsAt_drawn hx hy, State.drawn_fb,
      blendDots_twice_pixel State.spriteDotsAt_nodup]
  case first =>
    have hnoHit : ¬ (s.drawn x y n).readV regF = 1 := by
      rw [State.readV_drawn_flag_eq_one_iff]
      rintro ⟨r, c, -, -, -, hlit⟩
      exact Bool.false_ne_true ((hblank _ _).symm.trans hlit)
    rw [State.readV_drawn_flag] at hnoHit ⊢
    exact (flagByte_zero_or_one _).resolve_right hnoHit
  case second =>
    rintro ⟨r, c, hr, hc, hset⟩
    have hbit : (s.spriteDot x y r (7 - c)).2.2 = true := by
      show (s.readMem (s.dataAddr r)).getLsbD (7 - (7 - c)) = true
      rwa [Nat.sub_sub_self (Nat.le_of_lt_succ hc)]
    have hcol : 7 - c < 8 := by omega
    refine State.readV_drawn_flag_eq_one_iff.2 ⟨r, 7 - c, hr, hcol, ?_⟩
    rw [State.spriteDot_drawn hx hy, State.pixel_drawn_inside hr hcol, hblank, hbit]
    exact ⟨rfl, rfl⟩

end Sys2Proof.Machine

/-! PROOFS. The keypad and the timers: the two key skips, the wait for a key and the event that lifts it,
and the timers (spec/45_keypad_timers.md R130 to R134; spec/60_exceptions.md R173). -/

namespace Sys2Proof.Machine

/-- The digits `hxkk` are a word of the instruction that encodes with the group `h` and the low byte `kk`
(R52, R55). -/
theorem isWordOf_formatXK {h : BitVec 4} {kk : Byte} {x : Reg} {i : Instr} (hw : encode i = formatXK h x kk)
    (hi : i.isExtension = false) : IsWordOf (0x1000 * h.toNat + kk.toNat + 0x100 * x.val) i := by
  refine isWordOf_of_encode (hw.trans (ofNat_formatXK ?_).symm) hi
  omega

/-! ### The key skips (R130, R131, R154) -/

theorem exec_skp_of_key {x : Reg} {s : State} {k : Key} (h : (s.readV x).toNat = k.val) :
    exec (.skp x) s = .next (s.skipIf (s.keyDown k)) := withKey_of_key _ h

theorem exec_sknp_of_key {x : Reg} {s : State} {k : Key} (h : (s.readV x).toNat = k.val) :
    exec (.sknp x) s = .next (s.skipIf (!s.keyDown k)) := withKey_of_key _ h

/-- Settles O51: the register is checked to hold a key number first, and the flag of that key then decides
the skip. -/
theorem keySkipsTestOneFlag : Obligations.KeySkipsTestOneFlag := by
  intro x s
  refine ⟨isWordOf_formatXK (h := 0xE) (kk := 0x9E) rfl rfl,
    isWordOf_formatXK (h := 0xE) (kk := 0xA1) rfl rfl,
    fun hgt => ⟨withKey_of_gt _ hgt, withKey_of_gt _ hgt⟩, fun k hk => ⟨?down, ?up⟩⟩
  case down => exact onlySetsPc_of_skipIf (exec_skp_of_key hk) Iff.rfl
  case up =>
    simpa only [ite_not] using onlySetsPc_of_skipIf (exec_sknp_of_key hk) Bool.not_iff_not

/-! ### The wait for a key (R132) -/

theorem exec_ldK_of_firstKey {x : Reg} {s : State} {k : Key} (h : s.firstKey = some k) :
    exec (.ldK x) s = .next (s.writeV x (keyByte k)).advance := by
  show execLdK x s = _
  rw [execLdK, h]

theorem exec_ldK_of_noKey {x : Reg} {s : State} (h : s.firstKey = none) : exec (.ldK x) s = .next s := by
  show execLdK x s = _
  rw [execLdK, h]

/-- Settles O52: the scan answers the lowest key that is down, or none. -/
theorem waitForKeyTakesTheLowestKey : Obligations.WaitForKeyTakesTheLowestKey := by
  intro x s
  refine ⟨isWordOf_groupF (kk := 0x0A) rfl rfl, fun k hk hlow => ?key,
    fun hnone => exec_ldK_of_noKey (State.firstKey_eq_none.2 hnone)⟩
  case key =>
    rw [← keyByte_toNat k]
    exact setsRegister_of_exec (exec_ldK_of_firstKey (State.firstKey_eq_some.2 ⟨hk, hlow⟩))

/-! ### The event that lifts the wait (R173) -/

/-- A step at a wait-for-key is the meaning of that instruction, under every configuration and random byte. -/
theorem stepWith_of_fetches_ldK {c : Config} {x : Reg} {s t : State} (hf : Fetches c s (.ldK x))
    (h : exec (.ldK x) s = .next t) (rnd : Byte) : stepWith c rnd s = (t, .ok) := by
  rw [stepWith_of_fetches hf]
  show answerOf s (exec (.ldK x) s) = _
  rw [h, answerOf_next]

/-- The fetch does not read the key flags. -/
theorem Fetches.setKeys {c : Config} {s : State} {i : Instr} (h : Fetches c s i) (k : Vector Bool 16) :
    Fetches c (s.setKeys k) i := h

/-- Settles O53: the first step answers the very state, so the event and the second step act on it; that
step fetches the same wait, now with a key down. -/
theorem keysEventLiftsTheWait : Obligations.KeysEventLiftsTheWait := by
  intro c x s k key rnd rnd' hf hw hdown hlow
  have hheld : (stepWith c rnd s).1 = s :=
    congrArg Prod.fst (stepWith_of_fetches_ldK hf (exec_ldK_of_noKey hw.2) rnd)
  have hfirst : (s.setKeys k).firstKey = some key := State.firstKey_eq_some.2 ⟨hdown, hlow⟩
  have hlifted : (stepWith c rnd' (s.setKeys k)).1 = ((s.setKeys k).writeV x (keyByte key)).advance :=
    congrArg Prod.fst (stepWith_of_fetches_ldK (hf.setKeys k) (exec_ldK_of_firstKey hfirst) rnd')
  have hrun : runEvents c [.step rnd, .keys k, .step rnd'] s =
      ((s.setKeys k).writeV x (keyByte key)).advance := by
    show (stepWith c rnd' ((stepWith c rnd s).1.setKeys k)).1 = _
    rw [hheld, hlifted]
  refine ⟨hheld, ?_⟩
  rw [hrun]
  refine ⟨?key, fun r hr => State.readV_writeV_other _ _ hr, rfl, fun _ => rfl, rfl, ?frame⟩
  case key => rw [State.readV_advance, State.readV_writeV_same, keyByte_toNat]
  case frame => apply SameExcept.of_fields <;> simp

/-! ### The timers (R133, R134) -/

/-- Settles O54: each instruction writes its timer and advances. -/
theorem timersTakeTheRegister : Obligations.TimersTakeTheRegister := by
  intro x s
  refine ⟨isWordOf_groupF (kk := 0x15) rfl rfl, isWordOf_groupF (kk := 0x18) rfl rfl,
    ⟨_, rfl, rfl, rfl, ?delay⟩, ⟨_, rfl, rfl, rfl, ?sound⟩⟩
  case delay => exact exec_frame (i := .ldDt x) rfl
  case sound => exact exec_frame (i := .ldSt x) rfl

end Sys2Proof.Machine

/-! PROOFS. Fatal outcomes, ticks and key-state writes: the fatal cause of each instruction, the fatal
cases of a step, and what the host's two other events change (spec/60_exceptions.md R150 to R157, R170 to
R173). -/

namespace Sys2Proof.Machine

/-! ### The fatal causes (R151 to R154) -/

/-- A result that is the fault `g` when `p` holds and a next state otherwise. -/
theorem Result.eq_fault_iff {r : Result} {p : Prop} {f g : Fault} (hfault : p → r = .fault g)
    (hnext : ¬ p → ∃ t, r = .next t) : r = .fault f ↔ p ∧ f = g := by
  by_cases h : p
  · rw [hfault h, Host.Outcome.fault.injEq, eq_comm]
    exact (and_iff_right h).symm
  · obtain ⟨t, rfl⟩ := hnext h
    exact ⟨nofun, fun hc => absurd hc.1 h⟩

theorem inRange_next_eq_fault {hi : Nat} {t : State} {f : Fault} :
    inRange hi (.next t) = .fault f ↔ hi > lastAddr ∧ f = .addressOutOfRange hi :=
  Result.eq_fault_iff (inRange_of_gt · _) fun h => ⟨t, inRange_of_le (Nat.le_of_not_lt h) _⟩

theorem withKey_next_eq_fault {s : State} {x : Reg} {t : Key → State} {f : Fault} :
    withKey s x (fun k => .next (t k)) = .fault f ↔
      (s.readV x).toNat > 15 ∧ f = .keyIndexOutOfRange (s.readV x) :=
  Result.eq_fault_iff (withKey_of_gt _) fun h =>
    ⟨_, withKey_of_key _ (key := ⟨(s.readV x).toNat, by omega⟩) rfl⟩

theorem exec_ret_eq_fault {s : State} {f : Fault} :
    exec .ret s = .fault f ↔ s.sp.val = 0 ∧ f = .stackUnderflow s.pc :=
  Result.eq_fault_iff exec_ret_of_empty fun h =>
    ⟨_, exec_ret_of_entry (k := ⟨s.sp.val - 1, by omega⟩) (Nat.succ_pred h).symm⟩

theorem exec_call_eq_fault {nnn : Addr12} {s : State} {f : Fault} :
    exec (.call nnn) s = .fault f ↔ s.sp.val = 16 ∧ f = .stackOverflow s.pc :=
  Result.eq_fault_iff (exec_call_of_full nnn) fun h =>
    ⟨_, exec_call_of_room nnn (k := ⟨s.sp.val, by omega⟩) rfl⟩

theorem exec_drw_eq_fault {x y : Reg} {n : Height} {s : State} {f : Fault} :
    exec (.drw x y n) s = .fault f ↔
      n.val ≥ 1 ∧ s.i.toNat + n.val - 1 > lastAddr ∧ f = .addressOutOfRange (s.i.toNat + n.val - 1) := by
  rw [exec_drw_eq]
  by_cases h : n.val = 0
  · rw [if_pos h]
    exact ⟨nofun, fun hc => absurd hc.1 (by omega)⟩
  · have hn : n.val ≥ 1 := Nat.one_le_iff_ne_zero.2 h
    rw [if_neg h, inRange_next_eq_fault, State.dataAddr_lastRow hn]
    exact (and_iff_right hn).symm

theorem exec_ldK_ne_fault (x : Reg) (s : State) (f : Fault) : exec (.ldK x) s ≠ .fault f := by
  cases h : s.firstKey with
  | none => exact exec_ldK_of_noKey h ▸ nofun
  | some k => exact exec_ldK_of_firstKey h ▸ nofun

/-- What makes an instruction fatal, and the outcome it then has: the closed list of R151 to R154. -/
def FatalCause (s : State) (f : Fault) : Instr → Prop
  | .ret => s.sp.val = 0 ∧ f = .stackUnderflow s.pc
  | .call _ => s.sp.val = 16 ∧ f = .stackOverflow s.pc
  | .skp x | .sknp x => (s.readV x).toNat > 15 ∧ f = .keyIndexOutOfRange (s.readV x)
  | .drw _ _ n =>
    n.val ≥ 1 ∧ s.i.toNat + n.val - 1 > lastAddr ∧ f = .addressOutOfRange (s.i.toNat + n.val - 1)
  | .ldB _ => s.i.toNat + 2 > lastAddr ∧ f = .addressOutOfRange (s.i.toNat + 2)
  | .stRegs x | .ldRegs x => s.i.toNat + x.val > lastAddr ∧ f = .addressOutOfRange (s.i.toNat + x.val)
  | _ => False

theorem exec_eq_fault_iff {i : Instr} {s : State} {f : Fault} : exec i s = .fault f ↔ FatalCause s f i := by
  cases i
  case ret => exact exec_ret_eq_fault
  case call => exact exec_call_eq_fault
  case skp | sknp => exact withKey_next_eq_fault
  case drw => exact exec_drw_eq_fault
  case ldB | stRegs | ldRegs => exact inRange_next_eq_fault
  case ldK x => exact iff_false_intro (exec_ldK_ne_fault x s f)
  all_goals exact iff_false_intro nofun

/-- A step is fatal in its fetch or in the instruction fetched; an unrecognized word is not (R155, R157). -/
theorem step_eq_fault_iff {s : State} {f : Fault} : step s = .fault f ↔
    (s.pc.toNat + 1 > lastAddr ∧ f = .addressOutOfRange s.pc.toNat) ∨
    ∃ i, Fetches Config.machine s i ∧ FatalCause s f i := by
  constructor
  · intro h
    by_cases hpc : lastAddr < s.pc.toNat + 1
    · rw [step_of_error (fetch_error hpc)] at h
      cases h
      exact .inl ⟨hpc, rfl⟩
    · have hf := fetch_ok (c := Config.machine) (Nat.le_of_not_lt hpc)
      cases hd : decodeWord Config.machine.ext8xy0Fx07 _ with
      | none => cases (step_of_none hf hd).symm.trans h
      | some i => exact .inr ⟨i, (fetches_iff hf).2 hd, exec_eq_fault_iff.1 ((step_of_some hf hd).symm.trans h)⟩
  · rintro (⟨hpc, rfl⟩ | ⟨i, hi, hc⟩)
    · exact step_of_error (fetch_error hpc)
    · exact (step_of_fetches hi).trans (exec_eq_fault_iff.2 hc)

/-- Settles O21: a step is fatal in its fetch or by the cause of the instruction fetched, and only the
instructions listed have one. -/
theorem fatalCausesAreExactlyTheSpecs : Obligations.FatalCausesAreExactlyTheSpecs := by
  intro s f
  rw [step_eq_fault_iff]
  refine or_congr_right ⟨?listed, ?fatal⟩
  case listed =>
    rintro ⟨i, hi, hc⟩
    cases i
    case ret => exact .inl ⟨hi, hc⟩
    case call nnn => exact .inr (.inl ⟨nnn, hi, hc⟩)
    case skp x => exact .inr (.inr (.inl ⟨x, .inl hi, hc⟩))
    case sknp x => exact .inr (.inr (.inl ⟨x, .inr hi, hc⟩))
    case drw x y n => exact .inr (.inr (.inr (.inl ⟨x, y, n, hi, hc⟩)))
    case ldB x => exact .inr (.inr (.inr (.inr (.inl ⟨x, hi, hc⟩))))
    case stRegs x => exact .inr (.inr (.inr (.inr (.inr ⟨x, .inl hi, hc⟩))))
    case ldRegs x => exact .inr (.inr (.inr (.inr (.inr ⟨x, .inr hi, hc⟩))))
    all_goals exact hc.elim
  case fatal =>
    rintro (⟨hi, hc⟩ | ⟨_, hi, hc⟩ | ⟨_, hi | hi, hc⟩ | ⟨_, _, _, hi, hc⟩ | ⟨_, hi, hc⟩ | ⟨_, hi | hi, hc⟩) <;>
      exact ⟨_, hi, hc⟩

/-! ### Ticks and key-state writes (R170 to R173) -/

/-- Settles O6: the event is `State.tick`, each timer on its own. -/
theorem tickDecrementsEachTimer : Obligations.TickDecrementsEachTimer := by
  have htimer : ∀ b : Byte, (tickTimer b).toNat = if b.toNat > 0 then b.toNat - 1 else 0 := fun b => by
    rw [toNat_tickTimer]
    split <;> omega
  exact fun _ s => ⟨s.tick, rfl, htimer s.dt, htimer s.st, by apply SameExcept.of_fields <;> simp⟩

/-- A number of ticks is that number of ticks of each timer, and nothing else (R170). -/
theorem runEvents_ticks (c : Config) (n : Nat) (s : State) : runEvents c (List.replicate n .tick) s =
    { s with dt := tickTimer^[n] s.dt, st := tickTimer^[n] s.st } := by
  induction n generalizing s with
  | zero => rfl
  | succ n ih => exact ih s.tick

theorem toNat_iterate_tickTimer (n : Nat) (b : Byte) : (tickTimer^[n] b).toNat = b.toNat - n := by
  induction n with
  | zero => rfl
  | succ n ih => rw [Function.iterate_succ_apply', toNat_tickTimer, ih, Nat.sub_sub]

/-- Settles O7: the ticks act on each timer alone, and `n` of them take `n` from it, down to 0. -/
theorem timersRunDownToZeroAndStay : Obligations.TimersRunDownToZeroAndStay := by
  intro c n s
  rw [runEvents_ticks]
  exact ⟨toNat_iterate_tickTimer n s.dt, toNat_iterate_tickTimer n s.st,
    by apply SameExcept.of_fields <;> simp⟩

/-- Settles O8: the event is `State.setKeys`. -/
theorem keysOverwritesAllFlags : Obligations.KeysOverwritesAllFlags :=
  fun _ k s => ⟨s.setKeys k, rfl, fun _ => rfl, by apply SameExcept.of_fields <;> simp⟩

end Sys2Proof.Machine

/-! PROOFS. `LOAD`, and the end of a run: the two answers of `LOAD` and the bytes it writes, and which
states a step leaves as they are with outcome `Ok` (spec/70_reset_and_hazards.md R182, R192). -/

namespace Sys2Proof.Machine

/-! ### `LOAD` (R182) -/

theorem State.load_of_gt (c : Config) (s : State) {bytes : List Byte} (h : progMax < bytes.length) :
    s.load c bytes = (s, .programTooLarge) := if_pos h

theorem State.load_of_le (c : Config) (s : State) {bytes : List Byte} (h : bytes.length ≤ progMax) :
    s.load c bytes = ({ s with mem := Memory.writeBytes c s.mem progBase bytes }, .loaded) :=
  if_neg h.not_gt

/-- Settles O9: the length decides, and a program that fits is one multi-byte write from `0x200`. -/
theorem loadCopiesVerbatimOrRejects : Obligations.LoadCopiesVerbatimOrRejects := by
  refine fun bytes s => ⟨State.load_of_gt _ s, fun h => ⟨_, State.load_of_le _ s h, ?copied, ?kept, ?frame⟩⟩
  case copied => exact fun k hk => Memory.read_writeBytes_inside Config.machine s.mem progBase hk
  case kept => exact fun a ha => Memory.read_writeBytes_outside Config.machine s.mem progBase ha
  case frame => apply SameExcept.of_fields <;> simp

/-! ### The end of a run (R192) -/

/-- A state fetches one instruction. -/
theorem Fetches.unique {c : Config} {s : State} {i j : Instr} (hi : Fetches c s i) (hj : Fetches c s j) :
    i = j :=
  Option.some.inj (hi.2.symm.trans hj.2)

/-- A jump to the address it stands at leaves the state as it is (R81, R192). -/
theorem execWith_jp_self (c : Config) (rnd : Byte) {nnn : Addr12} {s : State} (h : nnn.toNat = s.pc.toNat) :
    execWith c rnd (.jp nnn) s = .next s := by
  have htarget : targetOf nnn = s.pc := BitVec.eq_of_toNat_eq ((toNat_targetOf nnn).trans h)
  show Host.Outcome.next (s.jump (targetOf nnn)) = .next s
  rw [htarget]
  rfl

theorem settled_of_jp_self {c : Config} {s : State} {nnn : Addr12} (hf : Fetches c s (.jp nnn))
    (h : nnn.toNat = s.pc.toNat) : Settled c s := fun rnd => by
  rw [stepWith_of_fetches hf, execWith_jp_self c rnd h, answerOf_next]

theorem not_waiting_of_fetches_jp {c : Config} {s : State} {nnn : Addr12} (hf : Fetches c s (.jp nnn)) :
    ¬ Waiting c s := by
  rintro ⟨⟨x, hx⟩, -⟩
  cases hf.unique hx

theorem Waiting.settled {c : Config} {s : State} (h : Waiting c s) : Settled c s := by
  obtain ⟨⟨x, hf⟩, hnone⟩ := h
  exact stepWith_of_fetches_ldK hf (exec_ldK_of_noKey hnone)

/-- A settled state answers every step with `Ok`, so no step from it is fatal or unrecognized. -/
theorem Settled.not_goneWrong {c : Config} {s : State} (h : Settled c s) : ¬ GoneWrong c s := by
  rintro ⟨rnd, ⟨f, hf⟩ | ⟨op, hop⟩⟩
  · rw [h rnd] at hf
    cases hf
  · rw [h rnd] at hop
    cases hop

/-- Settles O56: a jump to itself and a wait with no key down both leave the state as it is, and only the
wait fetches the wait-for-key; a run gone wrong has a step that is not `Ok`. -/
theorem jumpToSelfEndsARun : Obligations.JumpToSelfEndsARun := by
  refine fun c s => ⟨fun nnn hf h => ?ended, fun hw => ?waits, fun hg hs => hs.not_goneWrong hg⟩
  case ended => exact ⟨settled_of_jp_self hf h, not_waiting_of_fetches_jp hf⟩
  case waits => exact ⟨hw.settled, fun hended => hended.2 hw⟩

end Sys2Proof.Machine
